-- ==== Sys2Proof/Word.lean ====
section
/-!
DEFINITION. The widths and the two-valued names the block computes with (spec 00_scope.md R5, R6; 10_state.md R13, R15, R25).
-/

namespace Sys2Proof

/-- `u8` and `i8`: an 8-bit field of the channel table, an 8-bit port register or mask (R5 `PIN_W` = `PORT_W` = 8, R6). -/
abbrev Byte := BitVec 8

/-- A 32-bit command word (R61). -/
abbrev Word := BitVec 32

/-- The address of an output port register. It is an opaque handle: no rule does arithmetic on an address (R40), so it
is a number and not a bit vector; `ADDR_W` bounds it in `Config.wf`. -/
abbrev PortAddr := Nat

/-- Electrical sense of "on" (R15): 0 = Normal, 1 = Inverted. -/
inductive Polarity where
  | normal
  | inverted
  deriving DecidableEq, Repr

/-- An electrical level of a pin (R24, R44): 0 = low, 1 = high. -/
inductive Level where
  | low
  | high
  deriving DecidableEq, Repr

/-- Direction of a logical pin (R25). -/
inductive PinMode where
  | input
  | output
  deriving DecidableEq, Repr

end Sys2Proof
end

