-- ==== Sys2Proof/Syntax.lean ====
section
/-!
DEFINITION. The instructions: one constructor per row of spec/opcode_table.json (30_encoding.md R65, R68).

Every operand is exactly as wide as its field of the command word (R61, R62), so a term of this type is well formed as syntax
by its type; what a caller must check beyond that is in WellFormed.lean.
-/

namespace Sys2Proof

/-- The five host commands and the tick event.
`pin` operands are `i8` (R63): a negative pin selects every channel. Polarity operands are the whole 8-bit code `A` (R64). -/
inductive Instr where
  /-- `INIT pol` (R102). -/
  | init (pol : Byte)
  /-- `SETDUTY pin, value [, IMM]` (R103). -/
  | setduty (pin value : Byte) (imm : Bool)
  /-- `SETPOL pin, pol` (R109). -/
  | setpol (pin pol : Byte)
  /-- `DETACH pin` (R110). -/
  | detach (pin : Byte)
  /-- `SETRATE pin, up, down` (R111). -/
  | setrate (pin up down : Byte)
  /-- `TICK`, the tick event (R68, R80). -/
  | tick
  deriving DecidableEq, Repr

end Sys2Proof
end

