-- ==== Sys2Proof/Decode.lean ====
section
/-!
DEFINITION. Decoding and encoding of the block's two inputs (30_encoding.md R60 to R69).

The command word is transferred whole and has no byte order (R47, R61), so the decoder reads a 32-bit word and never bytes.
-/

namespace Sys2Proof

/-- The two inputs of R60: the tick strobe, one bit, and the command port, one 32-bit word. -/
inductive Input where
  | strobe (bit : Bool)
  | word (w : Word)
  deriving DecidableEq, Repr

/-- Why an input encodes no instruction. -/
inductive Reject where
  /-- `op` is 0x0 or 0x6..0xF (R67). -/
  | reservedOpcode
  /-- `rsvd` is not 0b000 (R67). -/
  | reservedBits
  /-- The tick strobe is 0: no event (R68). -/
  | noStrobe
  deriving DecidableEq, Repr

/-! ### Fields of format C (R61) -/

def opField (w : Word) : BitVec 4 := w.extractLsb' 28 4
def rsvdField (w : Word) : BitVec 3 := w.extractLsb' 25 3
def flagField (w : Word) : Bool := w.getLsbD 24
def pinField (w : Word) : Byte := w.extractLsb' 16 8
def aField (w : Word) : Byte := w.extractLsb' 8 8
def bField (w : Word) : Byte := w.extractLsb' 0 8

/-- The opcode map of R65 on `op` and `rsvd` alone (R69); the fields an opcode does not use are ignored (R66). -/
def decodeWord (w : Word) : Except Reject Instr :=
  if rsvdField w ≠ 0#3 then .error .reservedBits
  else if opField w = 0x1#4 then .ok (.init (aField w))
  else if opField w = 0x2#4 then .ok (.setduty (pinField w) (aField w) (flagField w))
  else if opField w = 0x3#4 then .ok (.setpol (pinField w) (aField w))
  else if opField w = 0x4#4 then .ok (.detach (pinField w))
  else if opField w = 0x5#4 then .ok (.setrate (pinField w) (aField w) (bField w))
  else .error .reservedOpcode

/-- Decoding of either input: the tick event is the strobe being 1 (R68). -/
def decode : Input → Except Reject Instr
  | .strobe true  => .ok .tick
  | .strobe false => .error .noStrobe
  | .word w       => decodeWord w

/-- A word of format C from its fields, most significant first; `rsvd` is 0 (R61). -/
def packWord (op : BitVec 4) (flag : Bool) (pin a b : Byte) : Word :=
  op ++ 0#3 ++ BitVec.ofBool flag ++ pin ++ a ++ b

/-- The input the assembler writes for an instruction: fields it does not use are 0 (R66); `TICK` is the strobe (R68). -/
def encode : Instr → Input
  | .init pol              => .word (packWord 0x1#4 false 0#8 pol 0#8)
  | .setduty pin value imm => .word (packWord 0x2#4 imm pin value 0#8)
  | .setpol pin pol        => .word (packWord 0x3#4 false pin pol 0#8)
  | .detach pin            => .word (packWord 0x4#4 false pin 0#8 0#8)
  | .setrate pin up down   => .word (packWord 0x5#4 false pin up down)
  | .tick                  => .strobe true

/-- The input that the opcode table's numbering gives: a row of one bit (in whole bytes, 8) is the tick event, whose bit 0 is
the strobe and which has no other bit; every other row is a command word. -/
def tableInput (nbits w : Nat) : Input :=
  if nbits ≤ 8 then .strobe (w == 1) else .word (BitVec.ofNat 32 w)

/-- The instruction the decoder reads from a row of spec/opcode_table.json. -/
def decodeTableWord (nbits w : Nat) : Option Instr :=
  (decode (tableInput nbits w)).toOption

end Sys2Proof
end

