-- ==== Sys2Proof/Config.lean ====
section
/-!
DEFINITION. The open parameters of 00_scope.md R5 (R33: parameters of the step relation, not state of the block), the one
parameter that is a function (`NARROW8`) as a free value without a body, and the example platform of 95_test_vectors.md.

The parameters are plain data that State carries in its field `cfg` and no step changes. A statement about every state is
therefore a statement about every platform: every RESOLVE, every VALID_PINS, every IDLE_LEVEL and so on. `N_CH` is not
repeated here: it is the length of the channel table (`State.nCh`), which no step changes either. DESIGN CHOICE (log 17).
-/

namespace Sys2Proof

/-- One pin the Pin Backend can resolve: `RESOLVE(pin) = (addr, mask)` (R5, R145). -/
structure PinEntry where
  pin  : Byte
  addr : PortAddr
  mask : Byte
  deriving DecidableEq, Repr

/-- The parameters of R5 that are data.
`pins` is the function `RESOLVE` written out, and its keys are the set `VALID_PINS`. -/
structure Config where
  /-- `ADDR_W`, the width of an output port address. -/
  addrW       : Nat
  /-- `RESOLVE` on `VALID_PINS`. -/
  pins        : List PinEntry
  /-- `CNT_INIT`, the cycle counter when the first tick arrives. -/
  cntInit     : Byte
  /-- `IMM_RELOAD`, what the immediate path writes to the cycle counter; 0x00 by the source (90_conflicts.md C2). DEDUCED (log 18). -/
  immReload   : Byte
  /-- `IDLE_LEVEL`, the level DETACH leaves on the pin. -/
  idleLevel   : Level
  /-- `TICK_COMPARE`, handed to the Timer Backend by INIT and used by no rule. -/
  tickCompare : Nat
  /-- `FADE_TERM`, the source's cyclesPerSecondTerm. -/
  fadeTerm    : Nat
  deriving DecidableEq, Repr

/-- What R5 says of the parameters: `VALID_PINS` is a set of non-negative pins (each written once, so that `RESOLVE` is a
function), and every address has `ADDR_W` bits. -/
def Config.wf (c : Config) : Bool :=
  c.pins.all (fun e => !e.pin.msb && decide (e.addr < 2 ^ c.addrW)) && decide (c.pins.map (·.pin)).Nodup

/-- The premise on `RESOLVE` of R145 and 93_implementation_defined.md U9: two different pins never share a bit of a port
register. It is a premise of claims, not a check of the machine: with overlap the slot order of R87 decides. DESIGN CHOICE (log 22). -/
def Config.disjoint (c : Config) : Bool :=
  c.pins.all fun e => c.pins.all fun f => e.pin == f.pin || e.addr != f.addr || e.mask &&& f.mask == 0#8

/-- `NARROW8`: how a fade rate above 255 is narrowed to 8 bits. No source gives it and 93_implementation_defined.md U5 allows
any value, so it is a free value: a constant without a body, of which nothing can be proved (log 16). -/
opaque Config.narrow8 : Nat → Byte

/-- The example platform's pins (95_test_vectors.md, Conventions): `RESOLVE_EX(p) = (0x20 + p div 8, 1 << (p mod 8))` for
`p` in 0..127. DESIGN CHOICE (log 2). -/
def Config.samplePins : List PinEntry :=
  (List.range 128).map fun p => ⟨BitVec.ofNat 8 p, 0x20 + p / 8, (1#8) <<< (p % 8)⟩

/-- The platform State.reset is given. The spec leaves every one of these open except `immReload`. DESIGN CHOICE (log 2). -/
def Config.sample : Config where
  addrW       := 8
  pins        := Config.samplePins
  cntInit     := 0#8
  immReload   := 0x00#8
  idleLevel   := .low
  tickCompare := 0
  fadeTerm    := 16

/-- The number of channel slots of State.reset: program P1 of 95_test_vectors.md runs with 4. DESIGN CHOICE (log 2). -/
def Config.sampleNCh : Nat := 4

end Sys2Proof
end

