-- ==== Sys2Proof/Machine/Platform.lean ====
section
/-!
DEFINITION. The Pin Backend's function `RESOLVE`, the set `VALID_PINS` and the set of output port addresses, read from the
parameters (00_scope.md R5; 20_memory.md R50; 60_exceptions.md R145).
-/

namespace Sys2Proof

/-- `RESOLVE(p) = (address, mask)`; none when `p` is not in `VALID_PINS`, which holds non-negative pins only (R5). -/
def Config.resolve (c : Config) (p : Byte) : Option (PortAddr × Byte) :=
  if p.msb then none
  else match c.pins.find? (fun e => e.pin == p) with
    | some e => some (e.addr, e.mask)
    | none   => none

/-- `p` is in `VALID_PINS`. -/
def Config.validPin (c : Config) (p : Byte) : Bool := (c.resolve p).isSome

/-- `a` is the address of an output port register of the platform: "given entirely by the platform through `RESOLVE`" (R50). -/
def Config.isPort (c : Config) (a : PortAddr) : Bool := c.pins.any fun e => e.addr == a

end Sys2Proof
end

