-- ==== Sys2Proof/Machine/State.lean ====
section
/-!
DEFINITION. The state of the block (10_state.md R10), the inputs not yet taken, and the reasons a step can stop.

State holds every row of R10 (`CNT`, `DEFPOL`, `CH`, `OUT`, `MODE`, `TMR_RUN`, `HOSTQ`), then three fields of the MODEL's own
for what R33 calls parameters of the step relation: the host's commands still to come (`program`), the order in which ticks and
host steps arrive (`schedule`), and the platform's parameters (`cfg`). DESIGN CHOICE (log 6, log 17). No step ever reads a clock: R164.
-/

namespace Sys2Proof.Machine

/-- One slot of the channel table: exactly the eight fields of R13. -/
structure Slot where
  /-- `i8`: -1 (any negative value) = free, ≥ 0 = the logical pin the slot owns (R14). -/
  pin     : Byte
  /-- Electrical sense of "on" (R15). -/
  pol     : Polarity
  /-- Address of the pin's output port register (R16). -/
  oreg    : PortAddr
  /-- The pin's bits within that register (R16). -/
  mask    : Byte
  /-- Duty the host wants (R17). -/
  target  : Byte
  /-- Duty driven in the current cycle (R18). -/
  current : Byte
  /-- Per-cycle step when rising, 0 = jump (R19). -/
  up      : Byte
  /-- Per-cycle step when falling, 0 = jump (R19). -/
  down    : Byte
  deriving DecidableEq, Repr

/-- A micro-operation of a host command: exactly one of the kinds R101 lists, each atomic. -/
inductive MicroOp where
  /-- `DEFPOL <- q` -/
  | setDefpol (q : Polarity)
  /-- `CNT <- v` -/
  | setCnt (v : Byte)
  /-- `CH[i].pin <- p` -/
  | setPin (i : Nat) (p : Byte)
  /-- `CH[i].pol <- q` -/
  | setPol (i : Nat) (q : Polarity)
  /-- `CH[i].oreg <- a` -/
  | setOreg (i : Nat) (a : PortAddr)
  /-- `CH[i].mask <- m` -/
  | setMask (i : Nat) (m : Byte)
  /-- `CH[i].target <- v` -/
  | setTarget (i : Nat) (v : Byte)
  /-- `CH[i].current <- v` -/
  | setCurrent (i : Nat) (v : Byte)
  /-- `CH[i].up <- v` -/
  | setUp (i : Nat) (v : Byte)
  /-- `CH[i].down <- v` -/
  | setDown (i : Nat) (v : Byte)
  /-- `WritePinLevel(p, l)` (R44) -/
  | writePinLevel (p : Byte) (l : Level)
  /-- `SetPinMode(p, mode)` (R45) -/
  | setPinMode (p : Byte) (m : PinMode)
  /-- `ConfigurePeriodicTick(compare)`: `TMR_RUN <- 1` (R144) -/
  | configureTick (compare : Nat)
  /-- `ResetCounter(value)`: `TimerReset()` (R144) -/
  | resetCounter (value : Nat)
  deriving DecidableEq, Repr

/-- Whose turn a step boundary is (R4, R51, R137): the schedule of R33. -/
inductive Turn where
  /-- The tick strobe is 1 (R60, R68). -/
  | strobe
  /-- The host agent moves: its next micro-operation, or its next command word when none is left. -/
  | host
  /-- Other software or hardware writes `v` to the port register at `a` (R24, R56). -/
  | foreign (a : PortAddr) (v : Byte)
  deriving DecidableEq, Repr

/-- A port space: (address, byte) pairs in the canonical form of `Memory.wf` (Machine/Ops.lean). -/
abbrev Memory := List Host.Cell

/-- The pin-mode space: (pin, direction) pairs in the same canonical form. DESIGN CHOICE (log 23). -/
abbrev PinModes := List (Nat × PinMode)

/-- The whole state: R10, then the model's own fields. -/
structure State where
  /-- `CNT`, the cycle counter (R11). -/
  cnt      : Byte
  /-- `DEFPOL`, the default polarity (R12). -/
  defpol   : Polarity
  /-- `CH[0 .. N_CH-1]`, the channel table (R13). Its length is `N_CH`. -/
  ch       : List Slot
  /-- `OUT`, the output port space (R24). -/
  out      : Memory
  /-- `MODE`, the direction of each logical pin (R25). -/
  mode     : PinModes
  /-- `TMR_RUN`, whether the Timer Backend delivers ticks (R26). -/
  tmrRun   : Bool
  /-- `HOSTQ`, the micro-operations of the command in progress still to run (R27). -/
  hostq    : List MicroOp
  /-- MODEL's own: the words the host will write to the command port, in arrival order (R33, R51 b). -/
  program  : List Word
  /-- MODEL's own: whose turn the coming step boundaries are (R33, R51); when it is used up, the host's. -/
  schedule : List Turn
  /-- MODEL's own: the platform's parameters (R5, R33). No step writes them. -/
  cfg      : Config
  deriving DecidableEq, Repr

/-- Why the machine stops with a fault. Both are SAFE: a stop where the block's behaviour is undefined. -/
inductive Fault where
  /-- Raised by `TICK`, and by `DETACH`, when they meet an occupied slot that does not hold an output port address of the
  platform (R50, R90; 93_implementation_defined.md U1, "fault"). Safe: undefined behaviour by the source. -/
  | badPortAddress
  /-- Raised by the micro-operations `WritePinLevel(p, _)` and `SetPinMode(p, _)` for a `p` outside `VALID_PINS`, where R44 and R25
  give them no meaning. Safe: no state that meets `State.Inv` (Safety.lean) reaches it. -/
  | unresolvedPin
  deriving DecidableEq, Repr

/-- Why the machine refuses. All are SAFE: a claim may become unprovable, none becomes provable. -/
inductive Refusal where
  /-- An instruction without a meaning yet. Raised by exec's refused arms only; there are none. -/
  | notModelled (mnemonic : String)
  /-- A command other than `INIT` before the first `INIT` (93_implementation_defined.md U3, "refuse"; R152). Raised by SETDUTY,
  SETPOL, DETACH, SETRATE. -/
  | beforeInit
  /-- A second `INIT` (93_implementation_defined.md U4, "refuse"; R102). Raised by INIT. -/
  | secondInit
  /-- `SETDUTY` attaches a pin outside `VALID_PINS` (93_implementation_defined.md U2, "refuse"; R105). Raised by SETDUTY. -/
  | unresolvablePin
  deriving DecidableEq, Repr

/-- A slot at power-on. The spec gives no value (R31, R150); -1 is the pin value INIT gives and the only one with which no
slot claims a pin (R14, R20); the rest is zero. DESIGN CHOICE (log 1). -/
def Slot.powerOn : Slot where
  pin := 0xFF#8
  pol := .normal
  oreg := 0
  mask := 0#8
  target := 0#8
  current := 0#8
  up := 0#8
  down := 0#8

/-- Power-on of a block with `n` slots on platform `c` (R31, R150): `TMR_RUN` = 0 and `HOSTQ` empty are the spec's; `CNT` is the
parameter `CNT_INIT` (R31); every other value is a DESIGN CHOICE (log 1). -/
def State.powerOn (c : Config) (n : Nat) : State where
  cnt      := c.cntInit
  defpol   := .normal
  ch       := List.replicate n Slot.powerOn
  out      := []
  mode     := []
  tmrRun   := false
  hostq    := []
  program  := []
  schedule := []
  cfg      := c

/-- The machine right after power-on, on the sample platform with its number of slots (log 2). -/
def State.reset : State := State.powerOn Config.sample Config.sampleNCh

end Sys2Proof.Machine
end

