-- ==== Sys2Proof/Machine/Ops.lean ====
section
/-!
DEFINITION. The named operations over State: the two sparse spaces, the field writes, the port primitives (20_memory.md R42
to R45), running a micro-operation (41_host_commands.md R101), starting a command, taking a tick and returning from it
(60_exceptions.md R136 to R139), a foreign write (R56), and taking the next input.
-/

namespace Sys2Proof.Machine

/-! ### A space held as (key, value) pairs: keys strictly rising, no pair with the value an unlisted key reads as -/

/-- The value at `a`; `d` is what an unlisted key reads as. -/
def sparseRead {α : Type} (d : α) : List (Nat × α) → Nat → α
  | [], _ => d
  | (k, v) :: m, a => if a = k then v else sparseRead d m a

/-- Write `v` at `a`, keeping the canonical form: writing `d` removes the pair. -/
def sparseWrite {α : Type} [DecidableEq α] (d : α) : List (Nat × α) → Nat → α → List (Nat × α)
  | [], a, v => if v = d then [] else [(a, v)]
  | (k, w) :: m, a, v =>
    if a < k then (if v = d then (k, w) :: m else (a, v) :: (k, w) :: m)
    else if a = k then (if v = d then m else (a, v) :: m)
    else (k, w) :: sparseWrite d m a v

/-- The canonical form. -/
def sparseWf {α : Type} [DecidableEq α] (d : α) : List (Nat × α) → Bool
  | [] => true
  | (k, v) :: m => decide (v ≠ d) && m.all (fun c => decide (k < c.1)) && sparseWf d m

/-- What a port register that nothing has written reads as. The spec leaves `OUT` unspecified (R24, R31). DESIGN CHOICE (log 3). -/
def Memory.unlisted : Byte := 0x00#8

/-- What the direction of a pin that nothing has set reads as. The spec leaves it unspecified (R25, D35). DESIGN CHOICE (log 1). -/
def PinModes.unlisted : PinMode := .input

/-- `MemRead(a, 1)` (R42). -/
def Memory.read (m : Memory) (a : PortAddr) : Byte := sparseRead Memory.unlisted m a
/-- `MemWrite(a, 1, v)` (R42). -/
def Memory.write (m : Memory) (a : PortAddr) (v : Byte) : Memory := sparseWrite Memory.unlisted m a v
/-- The port space's canonical form. -/
def Memory.wf (m : Memory) : Bool := sparseWf Memory.unlisted m

/-- `MODE[p]` for `p` ≥ 0 given as a number (R25). -/
def PinModes.read (m : PinModes) (p : Nat) : PinMode := sparseRead PinModes.unlisted m p
/-- `MODE[p] <- d` (R45). -/
def PinModes.write (m : PinModes) (p : Nat) (d : PinMode) : PinModes := sparseWrite PinModes.unlisted m p d
/-- The pin-mode space's canonical form. -/
def PinModes.wf (m : PinModes) : Bool := sparseWf PinModes.unlisted m

/-! ### Reading and writing one piece of state -/

/-- `N_CH`, the number of slots (R13); no step changes it. -/
def State.nCh (s : State) : Nat := s.ch.length

/-- `OUT[a]` -/
def State.outAt (s : State) (a : PortAddr) : Byte := Memory.read s.out a
/-- `MODE[p]` -/
def State.modeAt (s : State) (p : Byte) : PinMode := PinModes.read s.mode p.toNat

def State.setCnt (s : State) (v : Byte) : State := { s with cnt := v }
def State.setDefpol (s : State) (q : Polarity) : State := { s with defpol := q }
def State.setOut (s : State) (a : PortAddr) (v : Byte) : State := { s with out := Memory.write s.out a v }
def State.setMode (s : State) (p : Byte) (d : PinMode) : State := { s with mode := PinModes.write s.mode p.toNat d }
def State.setTmrRun (s : State) (b : Bool) : State := { s with tmrRun := b }
def State.setHostq (s : State) (q : List MicroOp) : State := { s with hostq := q }
def State.setProgram (s : State) (p : List Word) : State := { s with program := p }
def State.setSchedule (s : State) (t : List Turn) : State := { s with schedule := t }

/-- Write slot `i` through `f` (a field write of R41); there is no index out of range in any rule, and such a write would do
nothing. -/
def State.modifySlot (s : State) (i : Nat) (f : Slot → Slot) : State := { s with ch := s.ch.modify i f }

/-! ### Predicates on a slot (R23) -/

/-- `CH[i].pin >= 0` -/
def Slot.occupied (c : Slot) : Bool := !c.pin.msb

/-- `CH[i].pin < 0` -/
def Slot.free (c : Slot) : Bool := c.pin.msb

/-! ### Port primitives -/

/-- `PortSet(a, m)`: one atomic read-modify-write (R42). -/
def State.portSet (s : State) (a : PortAddr) (m : Byte) : State := s.setOut a (s.outAt a ||| m)

/-- `PortClear(a, m)` (R42). -/
def State.portClear (s : State) (a : PortAddr) (m : Byte) : State := s.setOut a (s.outAt a &&& ~~~m)

/-- Bring the bits `m` of port `a` to a level (R43, R44). -/
def State.portDrive (s : State) (a : PortAddr) (m : Byte) : Level → State
  | .high => s.portSet a m
  | .low  => s.portClear a m

/-- The on level of a polarity (glossary, R43). -/
def Polarity.onLevel : Polarity → Level
  | .normal   => .high
  | .inverted => .low

/-- The off level of a polarity (glossary, R43, R105 M5). -/
def Polarity.offLevel : Polarity → Level
  | .normal   => .low
  | .inverted => .high

/-- `DriveOn(i)`, reading `pol`, `oreg`, `mask` at the moment of the drive (R43). -/
def State.driveOn (s : State) (i : Nat) : State :=
  match s.ch[i]? with
  | some c => s.portDrive c.oreg c.mask (Polarity.onLevel c.pol)
  | none   => s

/-- `DriveOff(i)` (R43). -/
def State.driveOff (s : State) (i : Nat) : State :=
  match s.ch[i]? with
  | some c => s.portDrive c.oreg c.mask (Polarity.offLevel c.pol)
  | none   => s

/-- `WritePinLevel(p, l)` for a `p` in `VALID_PINS` (R44). -/
def State.writePinLevel (s : State) (p : Byte) (l : Level) : State :=
  match s.cfg.resolve p with
  | some (a, m) => s.portDrive a m l
  | none        => s

/-! ### The host agent: micro-operations and commands -/

/-- The pin a micro-operation brings up or takes down, if any: used by R56's "a pin being attached or detached". -/
def MicroOp.pin? : MicroOp → Option Byte
  | .writePinLevel p _ => some p
  | .setPinMode p _    => some p
  | .setPin _ p        => if p.msb then none else some p
  | .setDefpol _ | .setCnt _ | .setPol _ _ | .setOreg _ _ | .setMask _ _ | .setTarget _ _ | .setCurrent _ _ | .setUp _ _
  | .setDown _ _ | .configureTick _ | .resetCounter _ => none

/-- Where a micro-operation has a meaning: the two Pin Backend primitives are defined on `VALID_PINS` (R25, R44). -/
def MicroOp.defined (c : Config) : MicroOp → Bool
  | .writePinLevel p _ => c.validPin p
  | .setPinMode p _    => c.validPin p
  | .setDefpol _ | .setCnt _ | .setPin _ _ | .setPol _ _ | .setOreg _ _ | .setMask _ _ | .setTarget _ _ | .setCurrent _ _
  | .setUp _ _ | .setDown _ _ | .configureTick _ | .resetCounter _ => true

/-- The effect of a micro-operation (R101). `ResetCounter` changes no state of the model, and the compare value is used by no
rule (R144). DEDUCED (log 25). -/
def MicroOp.apply (s : State) : MicroOp → State
  | .setDefpol q       => s.setDefpol q
  | .setCnt v          => s.setCnt v
  | .setPin i p        => s.modifySlot i fun c => { c with pin := p }
  | .setPol i q        => s.modifySlot i fun c => { c with pol := q }
  | .setOreg i a       => s.modifySlot i fun c => { c with oreg := a }
  | .setMask i m       => s.modifySlot i fun c => { c with mask := m }
  | .setTarget i v     => s.modifySlot i fun c => { c with target := v }
  | .setCurrent i v    => s.modifySlot i fun c => { c with current := v }
  | .setUp i v         => s.modifySlot i fun c => { c with up := v }
  | .setDown i v       => s.modifySlot i fun c => { c with down := v }
  | .writePinLevel p l => s.writePinLevel p l
  | .setPinMode p d    => s.setMode p d
  | .configureTick _   => s.setTmrRun true
  | .resetCounter _    => s

/-- One host step: a micro-operation, atomic (R49, R101). -/
def runMicro (op : MicroOp) (s : State) : Host.Outcome State Fault Refusal :=
  if op.defined s.cfg then .next (op.apply s) else .fault .unresolvedPin

/-- A list of micro-operations one after the other, with no tick between them. -/
def runOps : List MicroOp → State → Host.Outcome State Fault Refusal
  | [], s => .next s
  | op :: ops, s =>
    match runMicro op s with
    | .next s'   => runOps ops s'
    | .fault r   => .fault r
    | .refused r => .refused r

/-- A command starts: its micro-operations are placed in `HOSTQ` (R60, R101). The next command starts only when `HOSTQ` is empty
(R51 b), which `hostTurn` sees to; with a non-empty `HOSTQ` the new ones would stand behind the old. DESIGN CHOICE (log 4, log 15). -/
def startCommand (ops : List MicroOp) (s : State) : Host.Outcome State Fault Refusal :=
  .next (s.setHostq (s.hostq ++ ops))

/-- Every command but `INIT` is refused before the first `INIT` (U3, R152). `TMR_RUN` is 1 from the end of `INIT` on (R26), and no
command starts while `INIT`'s micro-operations are queued, so `TMR_RUN` tells whether `INIT` has been done. DEDUCED (log 8). -/
def afterInit (s : State) (k : Host.Outcome State Fault Refusal) : Host.Outcome State Fault Refusal :=
  if s.tmrRun then k else .refused .beforeInit

/-! ### The tick: the block's only interrupt, its entry and its return -/

/-- Every occupied slot holds an output port address of the platform: where `TICK` is defined (R90). -/
def State.portsOk (s : State) : Bool := s.ch.all fun c => c.free || s.cfg.isPort c.oreg

/-- Taking a tick and returning from it. It is enabled if and only if `TMR_RUN` = 1 (R136), and an occurrence of the strobe while
`TMR_RUN` = 0 causes no step of the block (R60). Entry saves no state and changes no mode, mask or stack (R138); the one fixed
routine runs to completion as one transition (R87, R139); the return restores nothing and the host resumes with `HOSTQ`
unchanged (R139). Where an occupied slot holds no port address the source leaves it undefined: fault (R90, U1). DEDUCED (log 7),
DESIGN CHOICE (log 11). -/
def takeTick (routine : State → State) (s : State) : Host.Outcome State Fault Refusal :=
  if s.tmrRun then (if s.portsOk then .next (routine s) else .fault .badPortAddress) else .next s

/-- `for i in 0 .. N_CH-1`, ascending (R7, R87). -/
def forSlots (body : Nat → State → State) (s : State) : State :=
  (List.range s.nCh).foldl (fun t i => body i t) s

/-! ### Other writers of `OUT` (R56) -/

/-- The bits of port `a` that belong to the block: under the mask of an occupied slot, or under `RESOLVE(p)` of a pin being attached
or detached (R56), which is read off `HOSTQ`. DESIGN CHOICE (log 12). -/
def State.ownedMask (s : State) (a : PortAddr) : Byte :=
  let slots := s.ch.foldl (fun m c => if c.occupied && c.oreg == a then m ||| c.mask else m) 0#8
  s.hostq.foldl (fun m op =>
    match op.pin?.bind s.cfg.resolve with
    | some (b, k) => if b == a then m ||| k else m
    | none        => m) slots

/-- Other software or hardware writes `v` to port `a`: only the bits that do not belong to the block change (R56, D33). An address
that is no port of the platform has no register to change (R50). DESIGN CHOICE (log 12). -/
def State.foreignWrite (s : State) (a : PortAddr) (v : Byte) : State :=
  if s.cfg.isPort a then
    s.setOut a ((s.outAt a &&& s.ownedMask a) ||| (v &&& ~~~ s.ownedMask a))
  else s

/-! ### Taking the next input (R33, R51) -/

/-- Whose turn it is. When the schedule is used up it is the host's. DESIGN CHOICE (log 6). -/
def State.takeTurn (s : State) : Turn × State :=
  match s.schedule with
  | []      => (.host, s)
  | t :: ts => (t, s.setSchedule ts)

end Sys2Proof.Machine
end

