-- ==== Sys2Proof/Machine/Operands.lean ====
section
/-!
DEFINITION. The operand forms of the host commands: polarity codes (30_encoding.md R64), pin operands and channel matching
(R63, 41_host_commands.md R100), and the first free slot (R105).
-/

namespace Sys2Proof.Machine

/-- `coerce(A)`: 0 is Normal, every other code is Inverted (R64). -/
def coerce (code : Byte) : Polarity := if code = 0#8 then .normal else .inverted

/-- A negative pin operand selects broadcast (R63). -/
def isBroadcast (p : Byte) : Bool := p.msb

/-- Slot `c` is matched by the pin operand `p`: occupied, and `p < 0` or `p` is the pin it owns (R100). -/
def Slot.matchesPin (p : Byte) (c : Slot) : Bool := c.occupied && (isBroadcast p || c.pin == p)

/-- `MATCH(p)`: the matched slots' indices, ascending (R100). -/
def State.matchPin (s : State) (p : Byte) : List Nat :=
  (List.range s.nCh).filter fun i => (s.ch[i]?).any (Slot.matchesPin p)

/-- The lowest index of a free slot, "the first free slot" (R105). -/
def State.firstFree (s : State) : Option Nat :=
  (List.range s.nCh).find? fun i => (s.ch[i]?).any Slot.free

/-- Where `DETACH` is defined for slot `i`: it holds a port address of the platform (U1) and its pin is one `RESOLVE` is defined
on (R44). -/
def State.detachable (s : State) (i : Nat) : Bool :=
  (s.ch[i]?).all fun c => s.cfg.isPort c.oreg && s.cfg.validPin c.pin

end Sys2Proof.Machine
end

