-- ==== Sys2Proof/Machine/HostCommands.lean ====
section
/-!
DEFINITION. The family of the host commands (41_host_commands.md R100 to R111). A command's meaning is to place its
micro-operations, computed when it starts, in `HOSTQ` (R101); the host agent's later steps run them one by one.
-/

namespace Sys2Proof.Machine

/-! ### INIT (R102) -/

/-- The eight field writes of one slot. -/
def initSlotOps (q : Polarity) (i : Nat) : List MicroOp :=
  [.setPin i 0xFF#8, .setPol i q, .setOreg i 0, .setMask i 0#8, .setTarget i 0#8, .setCurrent i 0#8, .setUp i 0#8,
   .setDown i 0#8]

/-- The micro-operations of `INIT`: `DEFPOL` first, the timer last (R102). -/
def initOps (q : Polarity) (s : State) : List MicroOp :=
  .setDefpol q :: ((List.range s.nCh).flatMap (initSlotOps q) ++ [.configureTick s.cfg.tickCompare])

/-- `INIT pol` (R102); a second one is refused (U4; log 9). -/
def execInit (pol : Byte) (s : State) : Host.Outcome State Fault Refusal :=
  if s.tmrRun then .refused .secondInit else startCommand (initOps (coerce pol) s) s

/-! ### SETDUTY (R103 to R108) -/

/-- The immediate path, after all other micro-operations (R108). -/
def immediateOps (imm : Bool) (s : State) : List MicroOp :=
  if imm then [.setCnt s.cfg.immReload, .resetCounter 0] else []

/-- The attach path for slot `f`, pin `p`, resolved to `(a, m)`; `pin` is written last (R105). -/
def attachOps (f : Nat) (p v : Byte) (a : PortAddr) (m : Byte) (q : Polarity) : List MicroOp :=
  [.setOreg f a, .setMask f m, .setPol f q, .setTarget f v, .writePinLevel p (Polarity.offLevel q), .setPinMode p .output,
   .setPin f p]

/-- `SETDUTY` of a pin no slot owns: attach, no effect at all when no slot is free (R106), refused when the Pin Backend cannot resolve
the pin (U2). DESIGN CHOICE (log 10). -/
def attach (p v : Byte) (imm : Bool) (s : State) : Host.Outcome State Fault Refusal :=
  match s.firstFree with
  | none   => .next s
  | some f =>
    match s.cfg.resolve p with
    | none        => .refused .unresolvablePin
    | some (a, m) => startCommand (attachOps f p v a m s.defpol ++ immediateOps imm s) s

/-- `SETDUTY pin, value [, IMM]` (R103): broadcast (R107), update (R104), or attach (R105, R106). With several owners of one pin, which
R20 excludes, the first is updated. DESIGN CHOICE (log 14). -/
def execSetduty (p v : Byte) (imm : Bool) (s : State) : Host.Outcome State Fault Refusal :=
  afterInit s <|
    if isBroadcast p then
      startCommand ((s.matchPin p).map (fun i => MicroOp.setTarget i v) ++ immediateOps imm s) s
    else
      match s.matchPin p with
      | j :: _ => startCommand (MicroOp.setTarget j v :: immediateOps imm s) s
      | []     => attach p v imm s

/-! ### SETPOL (R109) -/

/-- `SETPOL pin, pol` (R109): `pol` of every matched channel, nothing driven. -/
def execSetpol (p pol : Byte) (s : State) : Host.Outcome State Fault Refusal :=
  afterInit s <| startCommand ((s.matchPin p).map fun i => MicroOp.setPol i (coerce pol)) s

/-! ### DETACH (R110) -/

/-- The three micro-operations of one matched channel: idle level, input mode, free the slot (R110). -/
def detachSlotOps (s : State) (i : Nat) : List MicroOp :=
  match s.ch[i]? with
  | none   => []
  | some c => [.writePinLevel c.pin s.cfg.idleLevel, .setPinMode c.pin .input, .setPin i 0xFF#8]

/-- `DETACH pin` (R110); undefined, hence a fault, for a matched slot without a port address (U1). DESIGN CHOICE (log 11). -/
def execDetach (p : Byte) (s : State) : Host.Outcome State Fault Refusal :=
  afterInit s <|
    if (s.matchPin p).all s.detachable then startCommand ((s.matchPin p).flatMap (detachSlotOps s)) s
    else .fault .badPortAddress

/-! ### SETRATE (R111) -/

/-- `SETRATE pin, up, down` (R111): `up` then `down` of every matched channel. -/
def execSetrate (p up down : Byte) (s : State) : Host.Outcome State Fault Refusal :=
  afterInit s <| startCommand ((s.matchPin p).flatMap fun i => [.setUp i up, .setDown i down]) s

end Sys2Proof.Machine
end

