-- ==== Sys2Proof/Machine/Flags.lean ====
section
/-!
DEFINITION. The block has no status flags, condition codes or predicates (10_state.md R30). What takes their place are the
two conditions `TICK` computes and does not keep: the cycle-start condition (40_tick.md R82) and the per-slot comparator (R86).
-/

namespace Sys2Proof.Machine

/-- A tick is a cycle-start tick exactly when the incremented counter is 0; the test is on the value, not on a carry (R82). -/
def cycleStart (cnt : Byte) : Bool := cnt == 0#8

/-- The comparator: equality only, of an occupied slot's current duty with the incremented counter (R86). -/
def comparatorHit (cnt : Byte) (c : Slot) : Bool := c.occupied && c.current == cnt

end Sys2Proof.Machine
end

