-- ==== Sys2Proof/Machine/Tick.lean ====
section
/-!
DEFINITION. The family of the tick event: `TICK` and its parts (40_tick.md R80 to R90).
-/

namespace Sys2Proof.Machine

/-- `FADE(c, t, up, dn)`: all arithmetic on integers, clamped at the target, no wrap (R83). -/
def fade (c t up dn : Byte) : Byte :=
  let d : Int := (t.toNat : Int) - c.toNat
  if d > 0 ∧ up.toNat > 0 then BitVec.ofInt 8 (min ((c.toNat : Int) + up.toNat) t.toNat)
  else if d < 0 ∧ dn.toNat > 0 then BitVec.ofInt 8 (max ((c.toNat : Int) - dn.toNat) t.toNat)
  else t

/-- The fade update of one slot (R84). -/
def Slot.faded (c : Slot) : Slot := { c with current := fade c.current c.target c.up c.down }

/-- One slot's part of a cycle-start tick: fade update, then rising edge, before the next slot is looked at (R84, R85, R87). A free
slot takes no part (R88). -/
def cycleSlot (i : Nat) (s : State) : State :=
  match s.ch[i]? with
  | none   => s
  | some c =>
    if c.occupied then
      let s' := s.modifySlot i Slot.faded
      if c.faded.current = 0#8 then s' else s'.driveOn i
    else s

/-- One slot's comparator and falling edge (R86). -/
def compareSlot (i : Nat) (s : State) : State :=
  match s.ch[i]? with
  | none   => s
  | some c => if comparatorHit s.cnt c then s.driveOff i else s

/-- The tick routine in its order: increment, cycle-start part, comparator part (R80, R81, R87). -/
def tickRoutine (s : State) : State :=
  let s1 := s.setCnt (s.cnt + 1#8)
  let s2 := if cycleStart s1.cnt then forSlots cycleSlot s1 else s1
  forSlots compareSlot s2

/-- `TICK` (R80). -/
def execTick (s : State) : Host.Outcome State Fault Refusal := takeTick tickRoutine s

end Sys2Proof.Machine
end

