-- ==== Sys2Proof/Machine/Dispatch.lean ====
section
/-!
DEFINITION. One arm per instruction, each one direct call of its meaning.
-/

namespace Sys2Proof.Machine

def exec (i : Instr) (s : State) : Host.Outcome State Fault Refusal :=
  match i with
  | .init pol => Sys2Proof.Machine.execInit pol s
  | .setduty pin value imm => Sys2Proof.Machine.execSetduty pin value imm s
  | .setpol pin pol => Sys2Proof.Machine.execSetpol pin pol s
  | .detach pin => Sys2Proof.Machine.execDetach pin s
  | .setrate pin up down => Sys2Proof.Machine.execSetrate pin up down s
  | .tick => Sys2Proof.Machine.execTick s

end Sys2Proof.Machine
end

