-- ==== Sys2Proof/Machine/Turns.lean ====
section
/-!
DEFINITION. What a turn of the schedule does (20_memory.md R51; 30_encoding.md R60, R67), and how the next instruction is placed
before the machine. Machine/Step.lean only calls these.
-/

namespace Sys2Proof.Machine

/-- The host reads its next command word, with `HOSTQ` empty (R51 b, R60): an instruction is executed, a reserved word is ignored and
changes no state (R67). DESIGN CHOICE (log 13). -/
def acceptWord (w : Word) (s : State) : Host.Outcome State Fault Refusal :=
  match decode (.word w) with
  | .ok i    => exec i s
  | .error _ => .next s

/-- The host's turn: its next micro-operation; with none left, its next command word; with none left, nothing (R51, R167).
DESIGN CHOICE (log 6). -/
def hostTurn (s : State) : Host.Outcome State Fault Refusal :=
  match s.hostq with
  | op :: ops => runMicro op (s.setHostq ops)
  | [] =>
    match s.program with
    | w :: ws => acceptWord w (s.setProgram ws)
    | []      => .next s

/-- The tick strobe's turn: the event decodes to `TICK` (R68). -/
def strobeTurn (s : State) : Host.Outcome State Fault Refusal :=
  match decode (.strobe true) with
  | .ok i    => exec i s
  | .error _ => .next s

/-- What a turn does. -/
def takeInput (t : Turn) (s : State) : Host.Outcome State Fault Refusal :=
  match t with
  | .strobe      => strobeTurn s
  | .host        => hostTurn s
  | .foreign a v => .next (s.foreignWrite a v)

/-- `s` with the table row's input placed where the very next step takes it: the strobe at the head of the schedule, or the word at the
command port with no command in progress and the host's turn next. An instruction other than `INIT` is selected only after
`INIT` (R60, R152), so `TMR_RUN` is set for it (log 5). -/
def State.withInput (s : State) : Input → State
  | .strobe bit =>
    if bit then (s.setTmrRun true).setSchedule (.strobe :: s.schedule) else s.setSchedule (.host :: s.schedule)
  | .word w =>
    let t := ((s.setHostq []).setProgram (w :: s.program)).setSchedule (.host :: s.schedule)
    if opField w = 0x1#4 then t else t.setTmrRun true

end Sys2Proof.Machine
end

