-- ==== Sys2Proof/Machine/Step.lean ====
section
/-!
DEFINITION. One step of the machine: one atomic transition of one agent (20_memory.md R51).
-/

namespace Sys2Proof.Machine

/-- The next turn of the schedule is taken and done: a whole `TICK`, one micro-operation of the host, the start of a host command, or
a foreign write (R51, R56, R60). -/
def step (s : State) : Host.Outcome State Fault Refusal :=
  takeInput s.takeTurn.1 s.takeTurn.2

/-- `s` with the instruction of a row of spec/opcode_table.json placed so that the next step takes it. -/
def State.withFetchWord (s : State) (nbits w : Nat) : State := s.withInput (tableInput nbits w)

end Sys2Proof.Machine
end

