-- ==== Sys2Proof/WellFormed.lean ====
section
/-!
DEFINITION. What the caller and the assembler check before a command reaches the block.

`Instr.wellFormed` is the premise of 93_implementation_defined.md U2 on a command. `AsmLine` is a line of the assembler
syntax of 30_encoding.md R70 to R72 with its operands as numbers (log 24; not an instruction: Syntax.lean holds the one instruction type), and
`AsmLine.wellFormed` its range checks. The expansion of a line is in Machine/Assembler.lean.
-/

namespace Sys2Proof

/-- "Every pin operand is in `VALID_PINS`", the premise of U2, for the one command that resolves its operand: a `SETDUTY`
of a non-negative pin. The other commands take an unknown pin silently (R132). -/
def Instr.wellFormed (c : Config) : Instr → Bool
  | .init _        => true
  | .setduty p _ _ => p.msb || c.validPin p
  | .setpol _ _    => true
  | .detach _      => true
  | .setrate _ _ _ => true
  | .tick          => true

/-- A line of the assembler syntax of R70, with the two pseudo-commands of R71 and R72. -/
inductive AsmLine where
  | init (pol : Nat)
  | setduty (pin : Int) (value : Nat) (imm : Bool)
  | setpol (pin : Int) (pol : Nat)
  | detach (pin : Int)
  | setrate (pin : Int) (up down : Nat)
  | tick (n : Nat)
  | setdutypct (pin : Int) (percent : Nat) (imm : Bool)
  | setfadetime (pin : Int) (upMs downMs : Nat)
  deriving DecidableEq, Repr

/-- `pin` in -128..127 (R70). -/
def pinInRange (p : Int) : Bool := decide (-128 ≤ p ∧ p ≤ 127)

/-- `value`, `up`, `down`, `pol` in 0..255 (R70). -/
def byteInRange (n : Nat) : Bool := decide (n ≤ 255)

/-- The ranges the assembler checks (R70), and a percentage in 0..100 (R71, U6). Milliseconds are any natural number (R72). -/
def AsmLine.wellFormed : AsmLine → Bool
  | .init pol            => byteInRange pol
  | .setduty p v _       => pinInRange p && byteInRange v
  | .setpol p pol        => pinInRange p && byteInRange pol
  | .detach p            => pinInRange p
  | .setrate p up down   => pinInRange p && byteInRange up && byteInRange down
  | .tick _              => true
  | .setdutypct p pct _  => pinInRange p && decide (pct ≤ 100)
  | .setfadetime p _ _   => pinInRange p

end Sys2Proof
end

