-- ==== Sys2Proof/Machine/Assembler.lean ====
section
/-!
DEFINITION. The expansion of assembler lines (30_encoding.md R70 to R72), the two pseudo-commands among them
(41_host_commands.md R112, R113). None of it is a step of the block: the host's software does it before a word is written.
-/

namespace Sys2Proof

/-- `value = floor(percent * 255 / 100)`, the product unbounded (R71, R112). -/
def percentToDuty (percent : Nat) : Nat := percent * 255 / 100

/-- `rate(ms)` (R113): 0 for 0; the truncated quotient when it fits; the free value `NARROW8(q)` when it does not (U5). -/
def fadeRate (c : Config) (ms : Nat) : Byte :=
  if ms = 0 then 0#8
  else
    let q := 255 * c.fadeTerm / ms
    if q ≤ 255 then BitVec.ofNat 8 q else Config.narrow8 q

/-- The instructions a well-formed line stands for; `TICK n` is `n` tick events (R70). -/
def AsmLine.expand (c : Config) : AsmLine → List Instr
  | .init pol               => [.init (BitVec.ofNat 8 pol)]
  | .setduty p v imm        => [.setduty (BitVec.ofInt 8 p) (BitVec.ofNat 8 v) imm]
  | .setpol p pol           => [.setpol (BitVec.ofInt 8 p) (BitVec.ofNat 8 pol)]
  | .detach p               => [.detach (BitVec.ofInt 8 p)]
  | .setrate p up down      => [.setrate (BitVec.ofInt 8 p) (BitVec.ofNat 8 up) (BitVec.ofNat 8 down)]
  | .tick n                 => List.replicate n .tick
  | .setdutypct p pct imm   => [.setduty (BitVec.ofInt 8 p) (BitVec.ofNat 8 (percentToDuty pct)) imm]
  | .setfadetime p upMs dMs => [.setrate (BitVec.ofInt 8 p) (fadeRate c upMs) (fadeRate c dMs)]

/-- The assembler: refuses a line out of range (R70, U6), otherwise the inputs of its instructions. -/
def assemble (c : Config) (l : AsmLine) : Option (List Input) :=
  if l.wellFormed then some ((l.expand c).map encode) else none

end Sys2Proof
end

