-- ==== Sys2Proof/Safety.lean ====
section
/-!
DEFINITION. What claims about the block speak of: the observable (00_scope.md R8), whole host commands without a tick inside, runs of
ticks, the invariants of 10_state.md R14, R20 and 41_host_commands.md R115, and what a safe state is.
-/

namespace Sys2Proof.Machine

/-! ### The observable (R8, R24) -/

/-- What R8 lets an observer see between steps: the port space and the pin-mode space. -/
def State.observable (s : State) : Memory × PinModes := (s.out, s.mode)

/-- The bits of pin `p` in its port register, when its direction lets them show electrically (R24, R25). -/
def State.pinBits (s : State) (p : Byte) : Option Byte :=
  match s.cfg.resolve p, s.modeAt p with
  | some (a, m), .output => some (s.outAt a &&& m)
  | _, _                 => none

/-- The bits `m` of a register all at one level. -/
def levelBits (l : Level) (m : Byte) : Byte :=
  match l with
  | .high => m
  | .low  => 0#8

/-! ### Whole commands and runs of ticks -/

/-- A host command from its start to its last micro-operation, with no tick between them: what 95_test_vectors.md calls "runs with no tick
between its micro-operations". -/
def runCommand (i : Instr) (s : State) : Host.Outcome State Fault Refusal :=
  match exec i s with
  | .next t    => runOps t.hostq (t.setHostq [])
  | .fault r   => .fault r
  | .refused r => .refused r

/-- `TICK n`: `n` ticks in a row (R70). -/
def ticks : Nat → State → Host.Outcome State Fault Refusal
  | 0, s => .next s
  | n + 1, s =>
    match exec .tick s with
    | .next t    => ticks n t
    | .fault r   => .fault r
    | .refused r => .refused r

/-! ### Invariants -/

/-- No other occupied slot drives a bit of slot `i`, which holds `c`: what R145's premise on `RESOLVE` gives (R87). -/
def State.alone (s : State) (i : Nat) (c : Slot) : Prop :=
  ∀ (j : Nat) (d : Slot), s.ch[j]? = some d → j ≠ i → d.occupied = true → d.oreg = c.oreg → d.mask &&& c.mask = 0#8

/-- What the channel table keeps from the end of the first `INIT` on. -/
structure State.TableOk (s : State) : Prop where
  /-- Every `pin` is -1 or in 0..127 (R14, R115 b). -/
  pins     : ∀ c ∈ s.ch, c.pin = 0xFF#8 ∨ c.occupied = true
  /-- At most one channel owns a pin (R20, R115 a). -/
  unique   : ∀ (i j : Nat) (c d : Slot), s.ch[i]? = some c → s.ch[j]? = some d → c.occupied = true → d.occupied = true → c.pin = d.pin → i = j
  /-- An occupied slot holds what `RESOLVE` gives for its pin (R46, R115 c). -/
  resolved : ∀ c ∈ s.ch, c.occupied = true → s.cfg.resolve c.pin = some (c.oreg, c.mask)

/-- The state after some micro-operations, wherever they are defined. -/
def State.afterOps (s : State) (ops : List MicroOp) : State := ops.foldl MicroOp.apply s

/-- The micro-operations only `INIT` has (R12, R18, R26). -/
def MicroOp.initOnly : MicroOp → Bool
  | .setDefpol _ | .setCurrent _ _ | .configureTick _ => true
  | .setCnt _ | .setPin _ _ | .setPol _ _ | .setOreg _ _ | .setMask _ _ | .setTarget _ _ | .setUp _ _ | .setDown _ _
  | .writePinLevel _ _ | .setPinMode _ _ | .resetCounter _ => false

/-- The invariant of the whole machine. It looks ahead along `HOSTQ`: after every prefix of the queued micro-operations at which
`TMR_RUN` is 1, the channel table is as R14, R20 and R115 say (so a tick between any two micro-operations finds it so, R52 c), and
nothing only `INIT` does is left to do; and when the queue is done every occupied pin is an output (R115 c). -/
structure State.Inv (s : State) : Prop where
  platform   : s.cfg.wf = true
  slots      : 0 < s.nCh
  outWf      : Memory.wf s.out = true
  outPorts   : ∀ e ∈ s.out, s.cfg.isPort e.1 = true
  modeWf     : PinModes.wf s.mode = true
  modePins   : ∀ e ∈ s.mode, e.1 < 128 ∧ s.cfg.validPin (BitVec.ofNat 8 e.1) = true
  queued     : ∀ op ∈ s.hostq, op.defined s.cfg = true
  ahead      : ∀ k, (s.afterOps (s.hostq.take k)).tmrRun = true →
                 (s.afterOps (s.hostq.take k)).TableOk ∧ ∀ op ∈ s.hostq.drop k, op.initOnly = false
  directions : (s.afterOps s.hostq).tmrRun = true →
                 ∀ c ∈ (s.afterOps s.hostq).ch, c.occupied = true → (s.afterOps s.hostq).modeAt c.pin = .output

/-- A safe state: the next step does not fault ("none of them traps", R134; "never fails", R90). -/
def State.Safe (s : State) : Prop := ∀ r, step s ≠ .fault r

end Sys2Proof.Machine
end

