-- ==== Sys2Proof/Certificates/Slice0/Obligations.lean ====
section
/-!
DEFINITION. The statements about the model, for the provers. Each docstring names the rule of spec/ it formalises. A statement of a
command's effect gives both what `exec` answers (the micro-operations in `HOSTQ`, in their order, R101) and the state when they have
all run with no tick between them (`runCommand`).
-/

open Sys2Proof Sys2Proof.Machine

/-! ### Encoding -/

/-- R73, row by row: what the assembler writes for each line, and what the word decodes to. -/
def Obligations.ExampleWordsAssembleAndDecode : Prop :=
  ∀ c : Config,
    (assemble c (.init 0) = some [.word 0x10000000#32] ∧ decode (.word 0x10000000#32) = .ok (.init 0#8)) ∧
    (assemble c (.init 1) = some [.word 0x10000100#32] ∧ decode (.word 0x10000100#32) = .ok (.init 1#8)) ∧
    (assemble c (.setduty 5 128 false) = some [.word 0x20058000#32] ∧
      decode (.word 0x20058000#32) = .ok (.setduty 5#8 128#8 false)) ∧
    (assemble c (.setduty 5 128 true) = some [.word 0x21058000#32] ∧
      decode (.word 0x21058000#32) = .ok (.setduty 5#8 128#8 true)) ∧
    (assemble c (.setduty (-1) 0 false) = some [.word 0x20FF0000#32] ∧
      decode (.word 0x20FF0000#32) = .ok (.setduty 255#8 0#8 false)) ∧
    (assemble c (.setpol 5 1) = some [.word 0x30050100#32] ∧ decode (.word 0x30050100#32) = .ok (.setpol 5#8 1#8)) ∧
    (assemble c (.setpol 5 2) = some [.word 0x30050200#32] ∧ decode (.word 0x30050200#32) = .ok (.setpol 5#8 2#8) ∧
      coerce 2#8 = .inverted) ∧
    (assemble c (.detach 5) = some [.word 0x40050000#32] ∧ decode (.word 0x40050000#32) = .ok (.detach 5#8)) ∧
    (assemble c (.detach (-1)) = some [.word 0x40FF0000#32] ∧ decode (.word 0x40FF0000#32) = .ok (.detach 255#8)) ∧
    (assemble c (.setrate 5 100 0) = some [.word 0x50056400#32] ∧
      decode (.word 0x50056400#32) = .ok (.setrate 5#8 100#8 0#8)) ∧
    (assemble c (.setrate (-1) 10 20) = some [.word 0x50FF0A14#32] ∧
      decode (.word 0x50FF0A14#32) = .ok (.setrate 255#8 10#8 20#8)) ∧
    (assemble c (.setdutypct 5 50 false) = some [.word 0x20057F00#32] ∧
      assemble c (.setduty 5 127 false) = some [.word 0x20057F00#32] ∧
      decode (.word 0x20057F00#32) = .ok (.setduty 5#8 127#8 false))

/-- R61, R63, R65, R68: no bit of any operand is lost between the assembler and the decoder. -/
def Obligations.DecodeOfEncodeIsTheInstruction : Prop :=
  ∀ i : Instr, decode (encode i) = .ok i

/-- R65: a word selects a row when `w & mask = match`, its operands are the fields of R61 read from the word, and a word that selects
no row is no command. -/
def Obligations.OpcodeMapSelectsByMatchAndMask : Prop :=
  ∀ w : Word,
    let sel := w &&& 0xFE000000#32
    let pin : Byte := (w >>> 16).setWidth 8
    let a : Byte := (w >>> 8).setWidth 8
    let b : Byte := w.setWidth 8
    let f : Bool := decide (w &&& 0x01000000#32 ≠ 0#32)
    (sel = 0x10000000#32 → decode (.word w) = .ok (.init a)) ∧
    (sel = 0x20000000#32 → decode (.word w) = .ok (.setduty pin a f)) ∧
    (sel = 0x30000000#32 → decode (.word w) = .ok (.setpol pin a)) ∧
    (sel = 0x40000000#32 → decode (.word w) = .ok (.detach pin)) ∧
    (sel = 0x50000000#32 → decode (.word w) = .ok (.setrate pin a b)) ∧
    (sel ≠ 0x10000000#32 → sel ≠ 0x20000000#32 → sel ≠ 0x30000000#32 → sel ≠ 0x40000000#32 → sel ≠ 0x50000000#32 →
      ∃ r, decode (.word w) = .error r)

/-- R66: a field an opcode does not use may hold any value, and the assembler writes 0 there. -/
def Obligations.UnusedFieldsAreIgnored : Prop :=
  ∀ (f : Bool) (p a b : Byte),
    decode (.word (packWord 0x1#4 f p a b)) = .ok (.init a) ∧
    decode (.word (packWord 0x2#4 f p a b)) = .ok (.setduty p a f) ∧
    decode (.word (packWord 0x3#4 f p a b)) = .ok (.setpol p a) ∧
    decode (.word (packWord 0x4#4 f p a b)) = .ok (.detach p) ∧
    decode (.word (packWord 0x5#4 f p a b)) = .ok (.setrate p a b) ∧
    encode (.init a) = .word (packWord 0x1#4 false 0#8 a 0#8) ∧
    encode (.setduty p a f) = .word (packWord 0x2#4 f p a 0#8) ∧
    encode (.setpol p a) = .word (packWord 0x3#4 false p a 0#8) ∧
    encode (.detach p) = .word (packWord 0x4#4 false p 0#8 0#8) ∧
    encode (.setrate p a b) = .word (packWord 0x5#4 false p a b)

/-- R67: a word whose `op` is 0x0 or 0x6..0xF, or whose `rsvd` is not 0, is read and ignored, in every state, before `INIT` too. -/
def Obligations.ReservedWordChangesNothing : Prop :=
  ∀ (s s0 : State) (w : Word) (ws : List Word),
    (w >>> 28 = 0#32 ∨ 6 ≤ (w >>> 28).toNat ∨ (w >>> 25) &&& 7#32 ≠ 0#32) →
    s.takeTurn = (.host, s0) → s0.hostq = [] → s0.program = w :: ws →
    step s = .next (s0.setProgram ws)

/-- R71 and R112: `SETDUTYPCT` is `SETDUTY` of `floor(percent * 255 / 100)`, which fits a duty; a percent above 100 is refused. -/
def Obligations.PercentIsTruncatedIntoDuty : Prop :=
  (∀ (c : Config) (p : Int) (pct : Nat) (imm : Bool),
    (pct ≤ 100 → assemble c (.setdutypct p pct imm) = assemble c (.setduty p (pct * 255 / 100) imm) ∧
      pct * 255 / 100 ≤ 255) ∧
    (100 < pct → assemble c (.setdutypct p pct imm) = none)) ∧
  [0, 1, 10, 25, 33, 50, 75, 99, 100].map percentToDuty = [0, 2, 25, 63, 84, 127, 191, 252, 255]

/-- R72 and R113: `SETFADETIME` is `SETRATE` of the two rates, each computed without wrap; the narrowed rate is the free value
`Config.narrow8`, whatever it is. -/
def Obligations.FadeTimeBecomesRate : Prop :=
  ∀ (c : Config) (p : Int) (up down : Nat), pinInRange p = true →
    assemble c (.setfadetime p up down) =
      some [encode (.setrate (BitVec.ofInt 8 p) (fadeRate c up) (fadeRate c down))] ∧
    ∀ ms : Nat,
      (ms = 0 → fadeRate c ms = 0#8) ∧
      (0 < ms → 255 * c.fadeTerm / ms ≤ 255 → (fadeRate c ms).toNat = 255 * c.fadeTerm / ms) ∧
      (0 < ms → 255 < 255 * c.fadeTerm / ms → fadeRate c ms = Config.narrow8 (255 * c.fadeTerm / ms)) ∧
      (255 * c.fadeTerm < ms → fadeRate c ms = 0#8)

/-! ### TICK -/

/-- R83, in natural numbers: the step in the direction of travel, clamped at the target, a jump where that direction's rate is 0; the
result lies between the old value and the target. -/
def Obligations.FadeStepsTowardTargetClamped : Prop :=
  ∀ c t up dn : Byte,
    (fade c t up dn).toNat =
      (if c.toNat < t.toNat ∧ 0 < up.toNat then min (c.toNat + up.toNat) t.toNat
       else if t.toNat < c.toNat ∧ 0 < dn.toNat then max (c.toNat - dn.toNat) t.toNat
       else t.toNat) ∧
    min c.toNat t.toNat ≤ (fade c t up dn).toNat ∧ (fade c t up dn).toNat ≤ max c.toNat t.toNat

/-- R80, R81, R82, R84, R88: where every occupied slot holds a port address and the timer runs, `TICK` completes; the counter is one
more modulo 256; at a cycle start, and only there, each occupied slot's `current` is faded and nothing else of the table changes; no
other state but `OUT` changes. -/
def Obligations.TickCompletesWithCounterAndFade : Prop :=
  ∀ s : State, s.tmrRun = true → (∀ c ∈ s.ch, c.occupied = true → s.cfg.isPort c.oreg = true) →
    ∃ t, exec .tick s = .next t ∧
      t.cnt.toNat = (s.cnt.toNat + 1) % 256 ∧
      (s.cnt = 255#8 → t.ch = s.ch.map fun c =>
        if c.occupied then { c with current := fade c.current c.target c.up c.down } else c) ∧
      (s.cnt ≠ 255#8 → t.ch = s.ch) ∧
      t = { s with cnt := t.cnt, ch := t.ch, out := t.out }

/-- R85, R86, R87: what one `TICK` does to the bits of an occupied slot whose bits no other occupied slot drives: off when the new
`current` equals the new `CNT`, otherwise on at a cycle start, otherwise as before. The polarity is the slot's. -/
def Obligations.TickDrivesAnOccupiedSlot : Prop :=
  ∀ (s : State) (i : Nat) (c : Slot), s.tmrRun = true →
    (∀ d ∈ s.ch, d.occupied = true → s.cfg.isPort d.oreg = true) → Memory.wf s.out = true →
    s.ch[i]? = some c → c.occupied = true → s.alone i c →
    ∃ t d, exec .tick s = .next t ∧ t.ch[i]? = some d ∧
      t.outAt c.oreg &&& c.mask =
        (if d.current = t.cnt then levelBits (Polarity.offLevel c.pol) c.mask
         else if t.cnt = 0#8 then levelBits (Polarity.onLevel c.pol) c.mask
         else s.outAt c.oreg &&& c.mask)

/-- R24, R42, R88: `TICK` writes no bit outside the masks of the occupied slots, at no address. -/
def Obligations.TickKeepsBitsOutsideMasks : Prop :=
  ∀ (s t : State) (a : PortAddr) (k : Nat), Memory.wf s.out = true → exec .tick s = .next t → k < 8 →
    (∀ c ∈ s.ch, c.occupied = true → c.oreg = a → c.mask.getLsbD k = false) →
    (t.outAt a).getLsbD k = (s.outAt a).getLsbD k

/-- R8, R82, R86: a `TICK` that is no cycle start and that no occupied slot's `current` meets changes nothing an observer sees. -/
def Obligations.TickWithoutAnEdgeIsNotObserved : Prop :=
  ∀ s t : State, exec .tick s = .next t → s.cnt ≠ 255#8 → (∀ c ∈ s.ch, c.occupied = true → c.current ≠ s.cnt + 1#8) →
    t.observable = s.observable

/-- R60, R136: while `TMR_RUN` is 0 an occurrence of the strobe causes no step of the block: the state stays (log 7). -/
def Obligations.TickIsNotEnabledBeforeInit : Prop :=
  ∀ s : State, s.tmrRun = false → exec .tick s = .next s

/-- R21, R81, R82: over `n` ticks in a row the counter advances by `n` modulo 256, and while it does not wrap no field of the channel
table changes. -/
def Obligations.CurrentIsHeldWithinACycle : Prop :=
  ∀ (s : State) (n : Nat), s.tmrRun = true → (∀ c ∈ s.ch, c.occupied = true → s.cfg.isPort c.oreg = true) →
    ∃ t, ticks n s = .next t ∧ t.cnt.toNat = (s.cnt.toNat + n) % 256 ∧ (s.cnt.toNat + n < 256 → t.ch = s.ch)

/-- R86, R157, R158: the comparator tests equality only. While the counter does not wrap, the bits of an occupied slot whose bits no other
occupied slot drives stay as they are, whatever they are, until the tick whose `CNT` equals `current`, and are at the off level from
then on; a `current` that `CNT` has already passed changes nothing. -/
def Obligations.LevelHoldsUntilTheComparatorMatches : Prop :=
  ∀ (s : State) (i : Nat) (c : Slot) (n : Nat), s.tmrRun = true →
    (∀ d ∈ s.ch, d.occupied = true → s.cfg.isPort d.oreg = true) → Memory.wf s.out = true →
    s.ch[i]? = some c → c.occupied = true → s.alone i c → s.cnt.toNat + n < 256 →
    ∃ t, ticks n s = .next t ∧
      t.outAt c.oreg &&& c.mask =
        (if s.cnt.toNat < c.current.toNat ∧ c.current.toNat ≤ s.cnt.toNat + n
         then levelBits (Polarity.offLevel c.pol) c.mask
         else s.outAt c.oreg &&& c.mask)

/-- R91: over 256 ticks that start with a cycle-start tick, an occupied slot with duty `v` in that cycle is at the on level after the
ticks numbered 0..`v`-1 and at the off level after the others, polarity as the slot says. -/
def Obligations.PulseIsOnForExactlyTheDuty : Prop :=
  ∀ (s : State) (i : Nat) (c : Slot), s.tmrRun = true →
    (∀ d ∈ s.ch, d.occupied = true → s.cfg.isPort d.oreg = true) → Memory.wf s.out = true →
    s.cnt = 255#8 → s.ch[i]? = some c → c.occupied = true → s.alone i c →
    ∀ n, n < 256 → ∃ t, ticks (n + 1) s = .next t ∧ t.cnt.toNat = n ∧
      t.outAt c.oreg &&& c.mask =
        (if n < (fade c.current c.target c.up c.down).toNat then levelBits (Polarity.onLevel c.pol) c.mask
         else levelBits (Polarity.offLevel c.pol) c.mask)

/-- R92: with target and rates held fixed, `current` after `k` cycle-start ticks, for every slot and every run of ticks; `k` is the
number of wraps of the counter. It reaches the target after `ceil(|t - c0| / r)` of them and stays. -/
def Obligations.FadeConvergesInClosedForm : Prop :=
  ∀ (s : State) (i : Nat) (c : Slot) (n : Nat), s.tmrRun = true →
    (∀ d ∈ s.ch, d.occupied = true → s.cfg.isPort d.oreg = true) → s.ch[i]? = some c → c.occupied = true →
    ∃ t d, ticks n s = .next t ∧ t.ch[i]? = some d ∧ d = { c with current := d.current } ∧
      let k := (s.cnt.toNat + n) / 256
      (c.current.toNat < c.target.toNat → 0 < c.up.toNat →
        d.current.toNat = min (c.current.toNat + k * c.up.toNat) c.target.toNat ∧
        ((c.target.toNat - c.current.toNat + c.up.toNat - 1) / c.up.toNat ≤ k → d.current = c.target)) ∧
      (c.target.toNat < c.current.toNat → 0 < c.down.toNat →
        d.current.toNat = max (c.current.toNat - k * c.down.toNat) c.target.toNat ∧
        ((c.current.toNat - c.target.toNat + c.down.toNat - 1) / c.down.toNat ≤ k → d.current = c.target)) ∧
      (¬ (c.current.toNat < c.target.toNat ∧ 0 < c.up.toNat) →
        ¬ (c.target.toNat < c.current.toNat ∧ 0 < c.down.toNat) → 1 ≤ k → d.current = c.target)

/-- 95_test_vectors.md B4 and I4, with R111 and R83: `SETRATE` queues its writes, and a `TICK` after any prefix of them leaves in each slot the
`current` of a `TICK` before all of them or of a `TICK` after all of them; for one pin and for a broadcast. -/
def Obligations.TickInsideSetrateIsBeforeOrAfter : Prop :=
  ∀ (s : State) (p u d : Byte) (k : Nat), s.tmrRun = true → s.hostq = [] →
    (∀ c ∈ s.ch, c.occupied = true → s.cfg.isPort c.oreg = true) →
    ∃ ops : List MicroOp, exec (.setrate p u d) s = .next (s.setHostq ops) ∧
      ∃ before inside after, exec .tick s = .next before ∧ exec .tick (s.afterOps (ops.take k)) = .next inside ∧
        exec .tick (s.afterOps ops) = .next after ∧
        ∀ (i : Nat) (c0 c c1 : Slot), before.ch[i]? = some c0 → inside.ch[i]? = some c → after.ch[i]? = some c1 →
          c.current = c0.current ∨ c.current = c1.current

/-! ### Host commands -/

/-- R100: `MATCH(p)` holds exactly the occupied slots that `p` addresses, ascending; at most one when `p` is not negative and the table
has unique owners (R20); when it is empty, `SETPOL`, `DETACH` and `SETRATE` complete and do nothing. -/
def Obligations.MatchIsOccupiedAndOwnedAscending : Prop :=
  ∀ (s : State) (p : Byte),
    (∀ i, i ∈ s.matchPin p ↔ ∃ c, s.ch[i]? = some c ∧ 0 ≤ c.pin.toInt ∧ (p.toInt < 0 ∨ c.pin = p)) ∧
    (s.matchPin p).Pairwise (· < ·) ∧
    (s.TableOk → 0 ≤ p.toInt → (s.matchPin p).length ≤ 1) ∧
    (s.tmrRun = true → s.matchPin p = [] →
      (∀ a, exec (.setpol p a) s = .next s) ∧ exec (.detach p) s = .next s ∧ ∀ u d, exec (.setrate p u d) s = .next s)

/-- R102 (and R31's column "after INIT"): before the first `INIT`, from any contents of the block, `INIT` queues `DEFPOL`, the eight
fields of every slot, and the timer last; when they have run, every slot is free with zeroed fields and the default polarity, the
timer runs, and nothing else has changed, `CNT`, `OUT` and `MODE` among it. -/
def Obligations.InitResetsTheTable : Prop :=
  ∀ (s : State) (a : Byte), s.tmrRun = false → s.hostq = [] →
    let q : Polarity := if a = 0#8 then .normal else .inverted
    exec (.init a) s = .next (s.setHostq
      (.setDefpol q ::
        ((List.range s.nCh).flatMap (fun i =>
          [.setPin i 0xFF#8, .setPol i q, .setOreg i 0, .setMask i 0#8, .setTarget i 0#8, .setCurrent i 0#8, .setUp i 0#8,
           .setDown i 0#8]) ++ [.configureTick s.cfg.tickCompare]))) ∧
    runCommand (.init a) s = .next { s with
      defpol := q
      ch := List.replicate s.nCh
        { pin := 0xFF#8, pol := q, oreg := 0, mask := 0#8, target := 0#8, current := 0#8, up := 0#8, down := 0#8 }
      tmrRun := true }

/-- R104 (and R108 when `IMM` is set): a `SETDUTY` of a pin that slot `j` owns writes `target` of that slot and nothing else; with `IMM`
the counter is then reloaded. -/
def Obligations.SetdutyUpdatesTargetOfTheOwner : Prop :=
  ∀ (s : State) (p v : Byte) (imm : Bool) (j : Nat), s.tmrRun = true → s.hostq = [] → 0 ≤ p.toInt → s.matchPin p = [j] →
    exec (.setduty p v imm) s = .next (s.setHostq
      (.setTarget j v :: if imm then [.setCnt s.cfg.immReload, .resetCounter 0] else [])) ∧
    runCommand (.setduty p v imm) s = .next { s with
      ch := s.ch.modify j fun c => { c with target := v }
      cnt := if imm then s.cfg.immReload else s.cnt }

/-- R105 (and R108 when `IMM` is set): a `SETDUTY` of a pin no slot owns claims the lowest free slot `f`, with the seven
micro-operations in their order, `pin` last; `current`, `up`, `down` are kept; the pin is at the off level of the default polarity
and an output. -/
def Obligations.SetdutyAttachesTheFirstFreeSlot : Prop :=
  ∀ (s : State) (p v : Byte) (imm : Bool) (f : Nat) (c : Slot) (a : PortAddr) (m : Byte),
    s.tmrRun = true → s.hostq = [] → 0 ≤ p.toInt → (∀ d ∈ s.ch, d.pin ≠ p) →
    s.ch[f]? = some c → c.pin.toInt < 0 → (∀ g d, g < f → s.ch[g]? = some d → 0 ≤ d.pin.toInt) →
    s.cfg.resolve p = some (a, m) →
    let off : Level := match s.defpol with
      | .normal => .low
      | .inverted => .high
    exec (.setduty p v imm) s = .next (s.setHostq
      ([.setOreg f a, .setMask f m, .setPol f s.defpol, .setTarget f v, .writePinLevel p off, .setPinMode p .output,
        .setPin f p] ++ if imm then [.setCnt s.cfg.immReload, .resetCounter 0] else [])) ∧
    runCommand (.setduty p v imm) s = .next { s with
      ch := s.ch.set f { c with pin := p, pol := s.defpol, oreg := a, mask := m, target := v }
      out := Memory.write s.out a (match off with
        | .high => s.outAt a ||| m
        | .low => s.outAt a &&& ~~~m)
      mode := PinModes.write s.mode p.toNat .output
      cnt := if imm then s.cfg.immReload else s.cnt }

/-- R153, R24, R25: from the attach of a pin to the next cycle-start tick the pin is an output and shows the off level of the default
polarity, whatever `current` the slot's last occupant left; its bits must be no other occupied slot's. -/
def Obligations.AttachedPinStaysOffUntilTheCycleStarts : Prop :=
  ∀ (s : State) (p v : Byte) (f : Nat) (c : Slot) (a : PortAddr) (m : Byte) (n : Nat),
    s.tmrRun = true → s.hostq = [] → Memory.wf s.out = true → PinModes.wf s.mode = true →
    (∀ d ∈ s.ch, d.occupied = true → s.cfg.isPort d.oreg = true ∧ (d.oreg = a → d.mask &&& m = 0#8)) →
    0 ≤ p.toInt → (∀ d ∈ s.ch, d.pin ≠ p) →
    s.ch[f]? = some c → c.pin.toInt < 0 → (∀ g d, g < f → s.ch[g]? = some d → 0 ≤ d.pin.toInt) →
    s.cfg.resolve p = some (a, m) → s.cnt.toNat + n < 256 →
    ∃ t u, runCommand (.setduty p v false) s = .next t ∧ ticks n t = .next u ∧
      u.pinBits p = some (levelBits (Polarity.offLevel s.defpol) m)

/-- R106, R131: with no slot free and the pin new, the call has no effect at all, `IMM` ignored. -/
def Obligations.SetdutyWithoutFreeSlotHasNoEffect : Prop :=
  ∀ (s : State) (p v : Byte) (imm : Bool), s.tmrRun = true → 0 ≤ p.toInt →
    (∀ d ∈ s.ch, d.pin ≠ p) → (∀ d ∈ s.ch, 0 ≤ d.pin.toInt) →
    exec (.setduty p v imm) s = .next s

/-- R107 (and R108 when `IMM` is set): a broadcast `SETDUTY` writes `target` of every occupied slot, ascending, and of no free one;
with no occupied slot `IMM` still reloads the counter. -/
def Obligations.SetdutyBroadcastWritesOccupiedSlots : Prop :=
  ∀ (s : State) (p v : Byte) (imm : Bool), s.tmrRun = true → s.hostq = [] → p.toInt < 0 →
    exec (.setduty p v imm) s = .next (s.setHostq
      ((s.matchPin p).map (fun i => MicroOp.setTarget i v) ++
        if imm then [.setCnt s.cfg.immReload, .resetCounter 0] else [])) ∧
    runCommand (.setduty p v imm) s = .next { s with
      ch := s.ch.map fun c => if 0 ≤ c.pin.toInt then { c with target := v } else c
      cnt := if imm then s.cfg.immReload else s.cnt }

/-- R105, R155: after any proper prefix of the attach path's micro-operations the slot is still free, so a tick there leaves it alone
(R88). -/
def Obligations.AttachPublishesThePinLast : Prop :=
  ∀ (s : State) (f : Nat) (c : Slot) (p v : Byte) (a : PortAddr) (m : Byte) (q : Polarity) (k : Nat),
    s.ch[f]? = some c → c.free = true → k < 7 →
    ∃ d, (s.afterOps ((attachOps f p v a m q).take k)).ch[f]? = some d ∧ d.free = true

/-- R109: `SETPOL` writes `pol` of every matched channel, coerced, ascending; nothing is driven and nothing else changes. -/
def Obligations.SetpolWritesPolarityOnly : Prop :=
  ∀ (s : State) (p a : Byte), s.tmrRun = true → s.hostq = [] →
    let q : Polarity := if a = 0#8 then .normal else .inverted
    exec (.setpol p a) s = .next (s.setHostq ((s.matchPin p).map fun i => MicroOp.setPol i q)) ∧
    runCommand (.setpol p a) s = .next { s with
      ch := s.ch.map fun c => if 0 ≤ c.pin.toInt ∧ (p.toInt < 0 ∨ c.pin = p) then { c with pol := q } else c }

/-- R111: `SETRATE` writes `up`, then `down`, of every matched channel, ascending, and nothing else. -/
def Obligations.SetrateWritesBothRatesOnly : Prop :=
  ∀ (s : State) (p u d : Byte), s.tmrRun = true → s.hostq = [] →
    exec (.setrate p u d) s = .next (s.setHostq ((s.matchPin p).flatMap fun i => [.setUp i u, .setDown i d])) ∧
    runCommand (.setrate p u d) s = .next { s with
      ch := s.ch.map fun c => if 0 ≤ c.pin.toInt ∧ (p.toInt < 0 ∨ c.pin = p) then { c with up := u, down := d } else c }

/-- R110: `DETACH` frees every matched slot and keeps its other seven fields, sets its pin to input, and brings the bits `RESOLVE` gives
for its pin to the idle level; every other slot, pin, port bit and register is as before. -/
def Obligations.DetachReleasesPinAndFreesSlot : Prop :=
  ∀ (s : State) (p : Byte), s.tmrRun = true → s.hostq = [] → Memory.wf s.out = true → PinModes.wf s.mode = true →
    (∀ c ∈ s.ch, c.matchesPin p = true → s.cfg.isPort c.oreg = true ∧ s.cfg.validPin c.pin = true) →
    exec (.detach p) s = .next (s.setHostq ((s.matchPin p).flatMap fun i =>
      match s.ch[i]? with
      | some c => [.writePinLevel c.pin s.cfg.idleLevel, .setPinMode c.pin .input, .setPin i 0xFF#8]
      | none => [])) ∧
    ∃ t, runCommand (.detach p) s = .next t ∧
      t = { s with ch := t.ch, out := t.out, mode := t.mode } ∧
      (t.ch = s.ch.map fun c => if 0 ≤ c.pin.toInt ∧ (p.toInt < 0 ∨ c.pin = p) then { c with pin := 0xFF#8 } else c) ∧
      (∀ q : Byte, t.modeAt q = if s.ch.any (fun c => c.matchesPin p && c.pin == q) then .input else s.modeAt q) ∧
      ∀ (b : PortAddr) (k : Nat), k < 8 → (t.outAt b).getLsbD k =
        if s.ch.any (fun c => c.matchesPin p && (s.cfg.resolve c.pin).any fun r => r.1 == b && r.2.getLsbD k)
        then decide (s.cfg.idleLevel = .high) else (s.outAt b).getLsbD k

/-- R101 and R28: starting a host command changes `HOSTQ` and nothing else, whatever the command and the state. That the start is a step of its
own is the model's inference (log 4); that the new micro-operations stand behind the old ones when `HOSTQ` is not empty is the model's
choice (log 15), for a case in which R51 (b) starts no command. -/
def Obligations.StartingACommandChangesHostqOnly : Prop :=
  ∀ (s t : State) (i : Instr), i ≠ .tick → exec i s = .next t → ∃ ops, t = s.setHostq (s.hostq ++ ops)

/-- The model's refusals, exactly: 93_implementation_defined.md U2, U3, U4, each "refuse". That `TMR_RUN` tells whether `INIT` was done is the
model's inference (log 8; also log 9, log 10). -/
def Obligations.RefusalsAreTheThreeUseErrors : Prop :=
  ∀ (s : State) (i : Instr) (r : Refusal), exec i s = .refused r ↔
    (r = .beforeInit ∧ s.tmrRun = false ∧ i ≠ .tick ∧ ∀ a, i ≠ .init a) ∨
    (r = .secondInit ∧ s.tmrRun = true ∧ ∃ a, i = .init a) ∨
    (r = .unresolvablePin ∧ s.tmrRun = true ∧ ∃ p v imm, i = .setduty p v imm ∧ 0 ≤ p.toInt ∧ (∀ c ∈ s.ch, c.pin ≠ p) ∧
      (∃ c ∈ s.ch, c.pin.toInt < 0) ∧ s.cfg.resolve p = none)

/-- The model's faults in `exec`, exactly: 93_implementation_defined.md U1, "fault", and R90. That the check comes before any effect is the
model's choice (log 11). -/
def Obligations.FaultsAreMalformedSlotsOnly : Prop :=
  ∀ (s : State) (i : Instr) (r : Fault), exec i s = .fault r ↔
    r = .badPortAddress ∧ s.tmrRun = true ∧
      ((i = .tick ∧ ∃ c ∈ s.ch, c.occupied = true ∧ s.cfg.isPort c.oreg = false) ∨
       ∃ p, i = .detach p ∧ ∃ c ∈ s.ch, c.matchesPin p = true ∧ (s.cfg.isPort c.oreg = false ∨ s.cfg.validPin c.pin = false))

/-! ### Port primitives -/

/-- R43 with R42: `DriveOn` and `DriveOff` of slot `i` change the bits under its mask in its port register, by its polarity, keep every
other bit of that register and every other register, and change nothing else. -/
def Obligations.DrivesChangeTheMaskedBitsOnly : Prop :=
  ∀ (s : State) (i : Nat) (c : Slot), Memory.wf s.out = true → s.ch[i]? = some c →
    (s.driveOn i).outAt c.oreg =
      (if c.pol = .normal then s.outAt c.oreg ||| c.mask else s.outAt c.oreg &&& ~~~c.mask) ∧
    (s.driveOff i).outAt c.oreg =
      (if c.pol = .normal then s.outAt c.oreg &&& ~~~c.mask else s.outAt c.oreg ||| c.mask) ∧
    (∀ b, b ≠ c.oreg → (s.driveOn i).outAt b = s.outAt b ∧ (s.driveOff i).outAt b = s.outAt b) ∧
    s.driveOn i = { s with out := (s.driveOn i).out } ∧ s.driveOff i = { s with out := (s.driveOff i).out }

/-- R44, R45: the two Pin Backend micro-operations of a pin `RESOLVE` is defined on complete; `WritePinLevel` changes the resolved bits
only and `SetPinMode` that pin's direction only. -/
def Obligations.PinBackendPrimitivesTouchOnePin : Prop :=
  ∀ (s : State) (p : Byte) (l : Level) (d : PinMode) (a : PortAddr) (m : Byte),
    Memory.wf s.out = true → PinModes.wf s.mode = true → s.cfg.resolve p = some (a, m) →
    (∃ t, runMicro (.writePinLevel p l) s = .next t ∧ t = { s with out := t.out } ∧
      t.outAt a = (if l = .high then s.outAt a ||| m else s.outAt a &&& ~~~m) ∧ ∀ b, b ≠ a → t.outAt b = s.outAt b) ∧
    (∃ t, runMicro (.setPinMode p d) s = .next t ∧ t = { s with mode := t.mode } ∧
      t.modeAt p = d ∧ ∀ q : Byte, q ≠ p → t.modeAt q = s.modeAt q)

/-! ### The step -/

/-- R51, R60, R68: what a step does on each turn: a command word with no command in progress runs the instruction it decodes to; a queued
micro-operation is taken off the queue and run; the strobe runs `TICK`; a foreign write writes. The turn is taken off the schedule
first, and it is the host's when the schedule is used up (schedule and program are the model's own: log 6). -/
def Obligations.StepRunsTheDecodedInstruction : Prop :=
  (∀ s : State, s.schedule = [] → s.takeTurn = (.host, s)) ∧
  (∀ (s : State) (t : Turn) (ts : List Turn), s.schedule = t :: ts → s.takeTurn = (t, { s with schedule := ts })) ∧
  ∀ s s0 : State,
    (∀ w ws i, s.takeTurn = (.host, s0) → s0.hostq = [] → s0.program = w :: ws → decode (.word w) = .ok i →
      step s = exec i { s0 with program := ws }) ∧
    (∀ op ops, s.takeTurn = (.host, s0) → s0.hostq = op :: ops → step s = runMicro op { s0 with hostq := ops }) ∧
    (s.takeTurn = (.host, s0) → s0.hostq = [] → s0.program = [] → step s = .next s0) ∧
    (s.takeTurn = (.strobe, s0) → step s = exec .tick s0) ∧
    (∀ a v, s.takeTurn = (.foreign a v, s0) → step s = .next (s0.foreignWrite a v))

/-- R51, R101: when the next turns, as many as there are queued micro-operations, are all the host's, that many steps run the queue in order,
and leave it empty and those turns used up. A turn beyond the end of the schedule is the host's by the model's choice (log 6). -/
def Obligations.HostStepsRunTheQueueInOrder : Prop :=
  ∀ s : State, (∀ t ∈ s.schedule.take s.hostq.length, t = Turn.host) →
    Host.Core.run Sys2Proof.core s.hostq.length s =
      runOps s.hostq ((s.setHostq []).setSchedule (s.schedule.drop s.hostq.length))

/-- R56: a foreign write changes, in a port register of the platform, exactly the bits that are neither under the mask of an occupied slot
nor under `RESOLVE(p)` of a pin being attached or detached. That the pins being attached or detached are read off `HOSTQ` is the model's
choice (log 12). -/
def Obligations.ForeignWritesSpareOwnedBits : Prop :=
  ∀ (s : State) (a b : PortAddr) (v : Byte) (k : Nat), Memory.wf s.out = true → k < 8 →
    let owned := (∃ c ∈ s.ch, c.occupied = true ∧ c.oreg = a ∧ c.mask.getLsbD k = true) ∨
      (∃ op ∈ s.hostq, ∃ p m, op.pin? = some p ∧ s.cfg.resolve p = some (a, m) ∧ m.getLsbD k = true)
    s.foreignWrite a v = { s with out := (s.foreignWrite a v).out } ∧
    ((b = a ∧ s.cfg.isPort a = true ∧ ¬ owned) → ((s.foreignWrite a v).outAt b).getLsbD k = v.getLsbD k) ∧
    (¬ (b = a ∧ s.cfg.isPort a = true ∧ ¬ owned) →
      ((s.foreignWrite a v).outAt b).getLsbD k = (s.outAt b).getLsbD k)

/-- R28 (a), R101: a tick between the arrival of a command and its start changes nothing of what the command queues. -/
def Obligations.TickDoesNotChangeWhatACommandQueues : Prop :=
  ∀ (s t : State) (i : Instr) (ops : List MicroOp), i ≠ .tick → exec .tick s = .next t →
    exec i s = .next (s.setHostq (s.hostq ++ ops)) → exec i t = .next (t.setHostq (t.hostq ++ ops))

/-- R28 (a): whether a tick falls before or not, the host's micro-operations leave the same values in every field a tick does not write:
the table but for `current`, `DEFPOL`, `MODE`, `TMR_RUN`. -/
def Obligations.HostFieldsAreIndependentOfTicks : Prop :=
  ∀ (s t u : State) (ops : List MicroOp), exec .tick s = .next t → runOps ops s = .next u →
    ∃ u', runOps ops t = .next u' ∧
      u'.ch.map (fun c => { c with current := 0#8 }) = u.ch.map (fun c => { c with current := 0#8 }) ∧
      u'.defpol = u.defpol ∧ u'.mode = u.mode ∧ u'.tmrRun = u.tmrRun

/-- R11, R12, R18, R21, R25, R26, R28, R45: who may write each piece of state, over every step of the machine, and to what value (`OUT`: by
whom only). -/
def Obligations.EachStateHasItsWritersOnly : Prop :=
  ∀ s t : State, step s = .next t →
    let ticking := s.takeTurn.1 = .strobe ∧ s.tmrRun = true
    let hostOp := fun op : MicroOp => s.takeTurn.1 = .host ∧ s.hostq.head? = some op
    (t.cnt ≠ s.cnt → ticking ∧ t.cnt = s.cnt + 1#8 ∨ hostOp (.setCnt t.cnt)) ∧
    (t.defpol ≠ s.defpol → hostOp (.setDefpol t.defpol)) ∧
    (t.tmrRun ≠ s.tmrRun → t.tmrRun = true ∧ ∃ n, hostOp (.configureTick n)) ∧
    (t.mode ≠ s.mode → ∃ p d, hostOp (.setPinMode p d) ∧ t.mode = PinModes.write s.mode p.toNat d) ∧
    (t.out ≠ s.out → ticking ∨ (∃ p l, hostOp (.writePinLevel p l)) ∨ ∃ a v, s.takeTurn.1 = .foreign a v) ∧
    (∀ i c d, s.ch[i]? = some c → t.ch[i]? = some d →
      (d.current ≠ c.current →
        ticking ∧ s.cnt = 255#8 ∧ c.occupied = true ∧ d.current = fade c.current c.target c.up c.down ∨
          hostOp (.setCurrent i d.current)) ∧
      (d.pin ≠ c.pin → hostOp (.setPin i d.pin)) ∧ (d.pol ≠ c.pol → hostOp (.setPol i d.pol)) ∧
      (d.oreg ≠ c.oreg → hostOp (.setOreg i d.oreg)) ∧ (d.mask ≠ c.mask → hostOp (.setMask i d.mask)) ∧
      (d.target ≠ c.target → hostOp (.setTarget i d.target)) ∧ (d.up ≠ c.up → hostOp (.setUp i d.up)) ∧
      (d.down ≠ c.down → hostOp (.setDown i d.down)))

/-- R13, R26, R33: no step changes the number of slots or a parameter, and none stops the timer. -/
def Obligations.CapacityParametersAndTimerAreKept : Prop :=
  ∀ s t : State, step s = .next t → t.nCh = s.nCh ∧ t.cfg = s.cfg ∧ (s.tmrRun = true → t.tmrRun = true)

/-- R21: after `INIT`, in every state that meets the invariant, a step changes a slot's `current` only when it is a `TICK` whose
incremented counter is 0. -/
def Obligations.CurrentChangesOnlyAtCycleStart : Prop :=
  ∀ (s t : State) (i : Nat) (c d : Slot), s.Inv → s.tmrRun = true → step s = .next t →
    s.ch[i]? = some c → t.ch[i]? = some d → d.current ≠ c.current → s.takeTurn.1 = .strobe ∧ t.cnt = 0#8

/-! ### Invariants -/

/-- R31, R150: what the spec gives of power-on: the timer does not run, `HOSTQ` is empty, `CNT` is `CNT_INIT`; for every platform and
every number of slots. The other values of `State.powerOn` are the model's own (log 1, log 2, log 3). -/
def Obligations.PowerOnLeavesTimerStopped : Prop :=
  ∀ (c : Config) (n : Nat), (State.powerOn c n).tmrRun = false ∧ (State.powerOn c n).hostq = [] ∧
    (State.powerOn c n).cnt = c.cntInit ∧ (State.powerOn c n).nCh = n

/-- The machine's invariant holds after reset. The contents of State.reset are the model's choice: log 1, log 2, log 3. -/
def Obligations.ResetMeetsTheInvariant : Prop := State.reset.Inv

/-- The canonical form of the two sparse spaces is kept by every step, from every state that has it (the form is the model's own; what an
unlisted key reads as: log 1, log 3). -/
def Obligations.CanonicalFormIsKept : Prop :=
  ∀ s t : State, Memory.wf s.out = true → PinModes.wf s.mode = true → step s = .next t →
    Memory.wf t.out = true ∧ PinModes.wf t.mode = true

/-- R14, R20, R46, R52 c, R115, R155: the invariant is kept by every step: ticks, micro-operations, starts of commands and foreign writes,
in any interleaving. -/
def Obligations.InvariantIsKeptByEveryStep : Prop :=
  ∀ s t : State, s.Inv → step s = .next t → t.Inv

/-- R90, R130, R134: in a state that meets the invariant nothing traps: the step does not fault, on any turn. -/
def Obligations.InvariantStatesNeverFault : Prop :=
  ∀ s : State, s.Inv → s.Safe

/-- R87, R145, 93_implementation_defined.md U9: with the premise that different pins resolve to disjoint bits, in every state that meets the
invariant no two occupied slots drive one bit, so the order of the slots cannot be observed. -/
def Obligations.DisjointPinsGiveEverySlotItsOwnBits : Prop :=
  ∀ (s : State) (i : Nat) (c : Slot), s.Inv → s.cfg.disjoint = true → s.tmrRun = true →
    s.ch[i]? = some c → c.occupied = true → s.alone i c

/-- R20, R115 (a), (b), (c): over every run from a state that meets the invariant, however ticks, host steps and foreign writes interleave,
once `INIT` is done no two slots own one pin, every pin is -1 or non-negative, an occupied slot holds what `RESOLVE` gives, and between
commands every owned pin is an output. -/
def Obligations.OwnershipHoldsAlongEveryRun : Prop :=
  ∀ (s t : State) (k : Nat), s.Inv → Host.Core.run Sys2Proof.core k s = .next t → t.tmrRun = true →
    t.TableOk ∧ (t.hostq = [] → ∀ c ∈ t.ch, c.occupied = true → t.modeAt c.pin = .output)
end

