-- ==== Sys2Proof/Laws/Decode.lean ====
section
/-!
SUPPORT. The fields of a packed command word, one lemma each (30_encoding.md R61).
-/

namespace Sys2Proof

variable (op : BitVec 4) (flag : Bool) (pin a b : Byte)

theorem packWord_op : opField (packWord op flag pin a b) = op := by
  apply BitVec.eq_of_getLsbD_eq
  intro k hk
  have h : ¬ 28 + k < 8 ∧ ¬ 28 + k - 8 < 8 ∧ ¬ 28 + k - 8 - 8 < 8 ∧ ¬ 28 + k - 8 - 8 - 8 < 1 ∧
    ¬ 28 + k - 8 - 8 - 8 - 1 < 3 ∧ 28 + k - 8 - 8 - 8 - 1 - 3 = k := by omega
  simp only [opField, packWord, BitVec.getLsbD_extractLsb', BitVec.getLsbD_append]
  simp [hk, h]

theorem packWord_rsvd : rsvdField (packWord op flag pin a b) = 0#3 := by
  apply BitVec.eq_of_getLsbD_eq
  intro k hk
  have h : ¬ 25 + k < 8 ∧ ¬ 25 + k - 8 < 8 ∧ ¬ 25 + k - 8 - 8 < 8 ∧ ¬ 25 + k - 8 - 8 - 8 < 1 ∧
    25 + k - 8 - 8 - 8 - 1 < 3 := by omega
  simp only [rsvdField, packWord, BitVec.getLsbD_extractLsb', BitVec.getLsbD_append]
  simp [hk, h]

theorem packWord_flag : flagField (packWord op flag pin a b) = flag := by
  simp only [flagField, packWord, BitVec.getLsbD_append]
  simp

theorem packWord_pin : pinField (packWord op flag pin a b) = pin := by
  apply BitVec.eq_of_getLsbD_eq
  intro k hk
  have h : ¬ 16 + k < 8 ∧ ¬ 16 + k - 8 < 8 ∧ 16 + k - 8 - 8 < 8 ∧ 16 + k - 8 - 8 = k := by omega
  simp only [pinField, packWord, BitVec.getLsbD_extractLsb', BitVec.getLsbD_append]
  simp [hk, h]

theorem packWord_a : aField (packWord op flag pin a b) = a := by
  apply BitVec.eq_of_getLsbD_eq
  intro k hk
  simp only [aField, packWord, BitVec.getLsbD_extractLsb', BitVec.getLsbD_append]
  simp [hk, show ¬ 8 + k < 8 by omega]

theorem packWord_b : bField (packWord op flag pin a b) = b := by
  apply BitVec.eq_of_getLsbD_eq
  intro k hk
  simp only [bField, packWord, BitVec.getLsbD_extractLsb', BitVec.getLsbD_append]
  simp [hk]

end Sys2Proof
end

