-- ==== Sys2Proof/Laws/Sparse.lean ====
section
/-!
SUPPORT. The laws of the two sparse spaces: a read after a write, and that a write keeps the canonical form.
-/

namespace Sys2Proof.Machine

section Sparse

variable {α : Type} {d : α}

/-- A key below every listed key reads as unlisted. -/
theorem sparseRead_below {m : List (Nat × α)} {a : Nat} (h : ∀ e ∈ m, a < e.1) : sparseRead d m a = d := by
  induction m with
  | nil => rfl
  | cons e m ih =>
    have hk : a < e.1 := h e (by simp)
    simp only [sparseRead, if_neg (Nat.ne_of_lt hk)]
    exact ih fun e he => h e (by simp [he])

variable [DecidableEq α]

theorem sparseWf_cons {k : Nat} {v : α} {m : List (Nat × α)} :
    sparseWf d ((k, v) :: m) = true ↔ v ≠ d ∧ (∀ e ∈ m, k < e.1) ∧ sparseWf d m = true := by
  simp [sparseWf, List.all_eq_true, and_assoc]

/-- Writing leaves every other key alone, whatever the form. -/
theorem sparseRead_write_other {m : List (Nat × α)} {a b : Nat} (v : α) (h : b ≠ a) :
    sparseRead d (sparseWrite d m a v) b = sparseRead d m b := by
  induction m with
  | nil => by_cases hv : v = d <;> simp [sparseWrite, sparseRead, hv, h]
  | cons e m ih =>
    obtain ⟨k, w⟩ := e
    simp only [sparseWrite]
    split_ifs with h1 h2 h3 h4
    · rfl
    · simp [sparseRead, h]
    · simp [sparseRead, ← h3, h]
    · simp [sparseRead, ← h3, h]
    · by_cases hb : b = k <;> simp [sparseRead, hb, ih]

/-- In the canonical form a read gives back what was written. -/
theorem sparseRead_write_same {m : List (Nat × α)} (hm : sparseWf d m = true) (a : Nat) (v : α) :
    sparseRead d (sparseWrite d m a v) a = v := by
  induction m with
  | nil => by_cases hv : v = d <;> simp [sparseWrite, sparseRead, hv]
  | cons e m ih =>
    obtain ⟨k, w⟩ := e
    obtain ⟨-, hk, hwf⟩ := sparseWf_cons.1 hm
    simp only [sparseWrite]
    split_ifs with h1 h2 h3 h4
    · rw [h2]
      refine sparseRead_below fun e he => ?_
      rcases List.mem_cons.1 he with rfl | he
      · exact h1
      · exact h1.trans (hk e he)
    · simp [sparseRead]
    · rw [h4, h3]
      exact sparseRead_below hk
    · simp [sparseRead]
    · simp [sparseRead, h3, ih hwf]

/-- Every key a write lists was listed or is the key written. -/
theorem sparseWrite_keys {m : List (Nat × α)} {a : Nat} {v : α} {e : Nat × α} (h : e ∈ sparseWrite d m a v) :
    e.1 = a ∨ e ∈ m := by
  induction m with
  | nil =>
    simp only [sparseWrite] at h
    split_ifs at h
    · simp at h
    · simp at h; simp [h]
  | cons f m ih =>
    obtain ⟨k, w⟩ := f
    simp only [sparseWrite] at h
    split_ifs at h <;> simp only [List.mem_cons] at h ⊢
    · exact .inr h
    · rcases h with rfl | h
      · exact .inl rfl
      · exact .inr h
    · exact .inr (.inr h)
    · rcases h with rfl | h
      · exact .inl rfl
      · exact .inr (.inr h)
    · rcases h with h | h
      · exact .inr (.inl h)
      · exact (ih h).imp id .inr

/-- A write keeps the canonical form. -/
theorem sparseWrite_wf {m : List (Nat × α)} (hm : sparseWf d m = true) (a : Nat) (v : α) :
    sparseWf d (sparseWrite d m a v) = true := by
  induction m with
  | nil => by_cases hv : v = d <;> simp [sparseWrite, sparseWf, hv]
  | cons e m ih =>
    obtain ⟨k, w⟩ := e
    obtain ⟨hw, hk, hwf⟩ := sparseWf_cons.1 hm
    simp only [sparseWrite]
    split_ifs with h1 h2 h3 h4
    · exact hm
    · refine sparseWf_cons.2 ⟨h2, fun e he => ?_, hm⟩
      rcases List.mem_cons.1 he with rfl | he
      · exact h1
      · exact h1.trans (hk e he)
    · exact hwf
    · exact sparseWf_cons.2 ⟨h4, fun e he => h3 ▸ hk e he, hwf⟩
    · refine sparseWf_cons.2 ⟨hw, fun e he => ?_, ih hwf⟩
      rcases sparseWrite_keys he with h | h
      · omega
      · exact hk e h

end Sparse

/-! ### The port space and the pin-mode space -/

theorem Memory.read_write_same {m : Memory} (h : Memory.wf m = true) (a : PortAddr) (v : Byte) :
    Memory.read (Memory.write m a v) a = v :=
  sparseRead_write_same h a v

theorem Memory.read_write_other {m : Memory} {a b : PortAddr} (v : Byte) (h : b ≠ a) :
    Memory.read (Memory.write m a v) b = Memory.read m b :=
  sparseRead_write_other v h

theorem Memory.write_wf {m : Memory} (h : Memory.wf m = true) (a : PortAddr) (v : Byte) :
    Memory.wf (Memory.write m a v) = true :=
  sparseWrite_wf h a v

theorem PinModes.read_write_same {m : PinModes} (h : PinModes.wf m = true) (p : Nat) (d : PinMode) :
    PinModes.read (PinModes.write m p d) p = d :=
  sparseRead_write_same h p d

theorem PinModes.read_write_other {m : PinModes} {p q : Nat} (d : PinMode) (h : q ≠ p) :
    PinModes.read (PinModes.write m p d) q = PinModes.read m q :=
  sparseRead_write_other d h

theorem PinModes.write_wf {m : PinModes} (h : PinModes.wf m = true) (p : Nat) (d : PinMode) :
    PinModes.wf (PinModes.write m p d) = true :=
  sparseWrite_wf h p d

end Sys2Proof.Machine
end

