-- ==== Sys2Proof/Laws/State.lean ====
section
/-!
SUPPORT. One lemma per field per update of State, true by rfl, so that no later proof unfolds a record update; then, for each port
operation, the fields it leaves alone.
-/

namespace Sys2Proof.Machine

variable (s : State)

/-! ### setCnt -/

@[simp] theorem State.setCnt_cnt (v : Byte) : (s.setCnt v).cnt = v := rfl
@[simp] theorem State.setCnt_defpol (v : Byte) : (s.setCnt v).defpol = s.defpol := rfl
@[simp] theorem State.setCnt_ch (v : Byte) : (s.setCnt v).ch = s.ch := rfl
@[simp] theorem State.setCnt_out (v : Byte) : (s.setCnt v).out = s.out := rfl
@[simp] theorem State.setCnt_mode (v : Byte) : (s.setCnt v).mode = s.mode := rfl
@[simp] theorem State.setCnt_tmrRun (v : Byte) : (s.setCnt v).tmrRun = s.tmrRun := rfl
@[simp] theorem State.setCnt_hostq (v : Byte) : (s.setCnt v).hostq = s.hostq := rfl
@[simp] theorem State.setCnt_program (v : Byte) : (s.setCnt v).program = s.program := rfl
@[simp] theorem State.setCnt_schedule (v : Byte) : (s.setCnt v).schedule = s.schedule := rfl
@[simp] theorem State.setCnt_cfg (v : Byte) : (s.setCnt v).cfg = s.cfg := rfl

@[simp] theorem State.setCnt_nCh (v : Byte) : (s.setCnt v).nCh = s.nCh := rfl

/-! ### setDefpol -/

@[simp] theorem State.setDefpol_cnt (q : Polarity) : (s.setDefpol q).cnt = s.cnt := rfl
@[simp] theorem State.setDefpol_defpol (q : Polarity) : (s.setDefpol q).defpol = q := rfl
@[simp] theorem State.setDefpol_ch (q : Polarity) : (s.setDefpol q).ch = s.ch := rfl
@[simp] theorem State.setDefpol_out (q : Polarity) : (s.setDefpol q).out = s.out := rfl
@[simp] theorem State.setDefpol_mode (q : Polarity) : (s.setDefpol q).mode = s.mode := rfl
@[simp] theorem State.setDefpol_tmrRun (q : Polarity) : (s.setDefpol q).tmrRun = s.tmrRun := rfl
@[simp] theorem State.setDefpol_hostq (q : Polarity) : (s.setDefpol q).hostq = s.hostq := rfl
@[simp] theorem State.setDefpol_program (q : Polarity) : (s.setDefpol q).program = s.program := rfl
@[simp] theorem State.setDefpol_schedule (q : Polarity) : (s.setDefpol q).schedule = s.schedule := rfl
@[simp] theorem State.setDefpol_cfg (q : Polarity) : (s.setDefpol q).cfg = s.cfg := rfl

@[simp] theorem State.setDefpol_nCh (q : Polarity) : (s.setDefpol q).nCh = s.nCh := rfl

/-! ### setOut -/

@[simp] theorem State.setOut_cnt (a : PortAddr) (v : Byte) : (s.setOut a v).cnt = s.cnt := rfl
@[simp] theorem State.setOut_defpol (a : PortAddr) (v : Byte) : (s.setOut a v).defpol = s.defpol := rfl
@[simp] theorem State.setOut_ch (a : PortAddr) (v : Byte) : (s.setOut a v).ch = s.ch := rfl
@[simp] theorem State.setOut_out (a : PortAddr) (v : Byte) : (s.setOut a v).out = Memory.write s.out a v := rfl
@[simp] theorem State.setOut_mode (a : PortAddr) (v : Byte) : (s.setOut a v).mode = s.mode := rfl
@[simp] theorem State.setOut_tmrRun (a : PortAddr) (v : Byte) : (s.setOut a v).tmrRun = s.tmrRun := rfl
@[simp] theorem State.setOut_hostq (a : PortAddr) (v : Byte) : (s.setOut a v).hostq = s.hostq := rfl
@[simp] theorem State.setOut_program (a : PortAddr) (v : Byte) : (s.setOut a v).program = s.program := rfl
@[simp] theorem State.setOut_schedule (a : PortAddr) (v : Byte) : (s.setOut a v).schedule = s.schedule := rfl
@[simp] theorem State.setOut_cfg (a : PortAddr) (v : Byte) : (s.setOut a v).cfg = s.cfg := rfl

@[simp] theorem State.setOut_nCh (a : PortAddr) (v : Byte) : (s.setOut a v).nCh = s.nCh := rfl

/-! ### setMode -/

@[simp] theorem State.setMode_cnt (p : Byte) (d : PinMode) : (s.setMode p d).cnt = s.cnt := rfl
@[simp] theorem State.setMode_defpol (p : Byte) (d : PinMode) : (s.setMode p d).defpol = s.defpol := rfl
@[simp] theorem State.setMode_ch (p : Byte) (d : PinMode) : (s.setMode p d).ch = s.ch := rfl
@[simp] theorem State.setMode_out (p : Byte) (d : PinMode) : (s.setMode p d).out = s.out := rfl
@[simp] theorem State.setMode_mode (p : Byte) (d : PinMode) : (s.setMode p d).mode = PinModes.write s.mode p.toNat d := rfl
@[simp] theorem State.setMode_tmrRun (p : Byte) (d : PinMode) : (s.setMode p d).tmrRun = s.tmrRun := rfl
@[simp] theorem State.setMode_hostq (p : Byte) (d : PinMode) : (s.setMode p d).hostq = s.hostq := rfl
@[simp] theorem State.setMode_program (p : Byte) (d : PinMode) : (s.setMode p d).program = s.program := rfl
@[simp] theorem State.setMode_schedule (p : Byte) (d : PinMode) : (s.setMode p d).schedule = s.schedule := rfl
@[simp] theorem State.setMode_cfg (p : Byte) (d : PinMode) : (s.setMode p d).cfg = s.cfg := rfl

@[simp] theorem State.setMode_nCh (p : Byte) (d : PinMode) : (s.setMode p d).nCh = s.nCh := rfl

/-! ### setTmrRun -/

@[simp] theorem State.setTmrRun_cnt (b : Bool) : (s.setTmrRun b).cnt = s.cnt := rfl
@[simp] theorem State.setTmrRun_defpol (b : Bool) : (s.setTmrRun b).defpol = s.defpol := rfl
@[simp] theorem State.setTmrRun_ch (b : Bool) : (s.setTmrRun b).ch = s.ch := rfl
@[simp] theorem State.setTmrRun_out (b : Bool) : (s.setTmrRun b).out = s.out := rfl
@[simp] theorem State.setTmrRun_mode (b : Bool) : (s.setTmrRun b).mode = s.mode := rfl
@[simp] theorem State.setTmrRun_tmrRun (b : Bool) : (s.setTmrRun b).tmrRun = b := rfl
@[simp] theorem State.setTmrRun_hostq (b : Bool) : (s.setTmrRun b).hostq = s.hostq := rfl
@[simp] theorem State.setTmrRun_program (b : Bool) : (s.setTmrRun b).program = s.program := rfl
@[simp] theorem State.setTmrRun_schedule (b : Bool) : (s.setTmrRun b).schedule = s.schedule := rfl
@[simp] theorem State.setTmrRun_cfg (b : Bool) : (s.setTmrRun b).cfg = s.cfg := rfl

@[simp] theorem State.setTmrRun_nCh (b : Bool) : (s.setTmrRun b).nCh = s.nCh := rfl

/-! ### setHostq -/

@[simp] theorem State.setHostq_cnt (q : List MicroOp) : (s.setHostq q).cnt = s.cnt := rfl
@[simp] theorem State.setHostq_defpol (q : List MicroOp) : (s.setHostq q).defpol = s.defpol := rfl
@[simp] theorem State.setHostq_ch (q : List MicroOp) : (s.setHostq q).ch = s.ch := rfl
@[simp] theorem State.setHostq_out (q : List MicroOp) : (s.setHostq q).out = s.out := rfl
@[simp] theorem State.setHostq_mode (q : List MicroOp) : (s.setHostq q).mode = s.mode := rfl
@[simp] theorem State.setHostq_tmrRun (q : List MicroOp) : (s.setHostq q).tmrRun = s.tmrRun := rfl
@[simp] theorem State.setHostq_hostq (q : List MicroOp) : (s.setHostq q).hostq = q := rfl
@[simp] theorem State.setHostq_program (q : List MicroOp) : (s.setHostq q).program = s.program := rfl
@[simp] theorem State.setHostq_schedule (q : List MicroOp) : (s.setHostq q).schedule = s.schedule := rfl
@[simp] theorem State.setHostq_cfg (q : List MicroOp) : (s.setHostq q).cfg = s.cfg := rfl

@[simp] theorem State.setHostq_nCh (q : List MicroOp) : (s.setHostq q).nCh = s.nCh := rfl

/-! ### setProgram -/

@[simp] theorem State.setProgram_cnt (p : List Word) : (s.setProgram p).cnt = s.cnt := rfl
@[simp] theorem State.setProgram_defpol (p : List Word) : (s.setProgram p).defpol = s.defpol := rfl
@[simp] theorem State.setProgram_ch (p : List Word) : (s.setProgram p).ch = s.ch := rfl
@[simp] theorem State.setProgram_out (p : List Word) : (s.setProgram p).out = s.out := rfl
@[simp] theorem State.setProgram_mode (p : List Word) : (s.setProgram p).mode = s.mode := rfl
@[simp] theorem State.setProgram_tmrRun (p : List Word) : (s.setProgram p).tmrRun = s.tmrRun := rfl
@[simp] theorem State.setProgram_hostq (p : List Word) : (s.setProgram p).hostq = s.hostq := rfl
@[simp] theorem State.setProgram_program (p : List Word) : (s.setProgram p).program = p := rfl
@[simp] theorem State.setProgram_schedule (p : List Word) : (s.setProgram p).schedule = s.schedule := rfl
@[simp] theorem State.setProgram_cfg (p : List Word) : (s.setProgram p).cfg = s.cfg := rfl

@[simp] theorem State.setProgram_nCh (p : List Word) : (s.setProgram p).nCh = s.nCh := rfl

/-! ### setSchedule -/

@[simp] theorem State.setSchedule_cnt (t : List Turn) : (s.setSchedule t).cnt = s.cnt := rfl
@[simp] theorem State.setSchedule_defpol (t : List Turn) : (s.setSchedule t).defpol = s.defpol := rfl
@[simp] theorem State.setSchedule_ch (t : List Turn) : (s.setSchedule t).ch = s.ch := rfl
@[simp] theorem State.setSchedule_out (t : List Turn) : (s.setSchedule t).out = s.out := rfl
@[simp] theorem State.setSchedule_mode (t : List Turn) : (s.setSchedule t).mode = s.mode := rfl
@[simp] theorem State.setSchedule_tmrRun (t : List Turn) : (s.setSchedule t).tmrRun = s.tmrRun := rfl
@[simp] theorem State.setSchedule_hostq (t : List Turn) : (s.setSchedule t).hostq = s.hostq := rfl
@[simp] theorem State.setSchedule_program (t : List Turn) : (s.setSchedule t).program = s.program := rfl
@[simp] theorem State.setSchedule_schedule (t : List Turn) : (s.setSchedule t).schedule = t := rfl
@[simp] theorem State.setSchedule_cfg (t : List Turn) : (s.setSchedule t).cfg = s.cfg := rfl

@[simp] theorem State.setSchedule_nCh (t : List Turn) : (s.setSchedule t).nCh = s.nCh := rfl

/-! ### modifySlot -/

@[simp] theorem State.modifySlot_cnt (i : Nat) (f : Slot → Slot) : (s.modifySlot i f).cnt = s.cnt := rfl
@[simp] theorem State.modifySlot_defpol (i : Nat) (f : Slot → Slot) : (s.modifySlot i f).defpol = s.defpol := rfl
@[simp] theorem State.modifySlot_ch (i : Nat) (f : Slot → Slot) : (s.modifySlot i f).ch = s.ch.modify i f := rfl
@[simp] theorem State.modifySlot_out (i : Nat) (f : Slot → Slot) : (s.modifySlot i f).out = s.out := rfl
@[simp] theorem State.modifySlot_mode (i : Nat) (f : Slot → Slot) : (s.modifySlot i f).mode = s.mode := rfl
@[simp] theorem State.modifySlot_tmrRun (i : Nat) (f : Slot → Slot) : (s.modifySlot i f).tmrRun = s.tmrRun := rfl
@[simp] theorem State.modifySlot_hostq (i : Nat) (f : Slot → Slot) : (s.modifySlot i f).hostq = s.hostq := rfl
@[simp] theorem State.modifySlot_program (i : Nat) (f : Slot → Slot) : (s.modifySlot i f).program = s.program := rfl
@[simp] theorem State.modifySlot_schedule (i : Nat) (f : Slot → Slot) : (s.modifySlot i f).schedule = s.schedule := rfl
@[simp] theorem State.modifySlot_cfg (i : Nat) (f : Slot → Slot) : (s.modifySlot i f).cfg = s.cfg := rfl

@[simp] theorem State.modifySlot_nCh (i : Nat) (f : Slot → Slot) : (s.modifySlot i f).nCh = s.nCh := by
  simp [State.nCh]

/-! ### portSet changes `OUT` only -/

@[simp] theorem State.portSet_cnt (a : PortAddr) (m : Byte) : (s.portSet a m).cnt = s.cnt := rfl
@[simp] theorem State.portSet_defpol (a : PortAddr) (m : Byte) : (s.portSet a m).defpol = s.defpol := rfl
@[simp] theorem State.portSet_ch (a : PortAddr) (m : Byte) : (s.portSet a m).ch = s.ch := rfl
@[simp] theorem State.portSet_mode (a : PortAddr) (m : Byte) : (s.portSet a m).mode = s.mode := rfl
@[simp] theorem State.portSet_tmrRun (a : PortAddr) (m : Byte) : (s.portSet a m).tmrRun = s.tmrRun := rfl
@[simp] theorem State.portSet_hostq (a : PortAddr) (m : Byte) : (s.portSet a m).hostq = s.hostq := rfl
@[simp] theorem State.portSet_program (a : PortAddr) (m : Byte) : (s.portSet a m).program = s.program := rfl
@[simp] theorem State.portSet_schedule (a : PortAddr) (m : Byte) : (s.portSet a m).schedule = s.schedule := rfl
@[simp] theorem State.portSet_cfg (a : PortAddr) (m : Byte) : (s.portSet a m).cfg = s.cfg := rfl
@[simp] theorem State.portSet_nCh (a : PortAddr) (m : Byte) : (s.portSet a m).nCh = s.nCh := by simp [State.nCh]

/-! ### portClear changes `OUT` only -/

@[simp] theorem State.portClear_cnt (a : PortAddr) (m : Byte) : (s.portClear a m).cnt = s.cnt := rfl
@[simp] theorem State.portClear_defpol (a : PortAddr) (m : Byte) : (s.portClear a m).defpol = s.defpol := rfl
@[simp] theorem State.portClear_ch (a : PortAddr) (m : Byte) : (s.portClear a m).ch = s.ch := rfl
@[simp] theorem State.portClear_mode (a : PortAddr) (m : Byte) : (s.portClear a m).mode = s.mode := rfl
@[simp] theorem State.portClear_tmrRun (a : PortAddr) (m : Byte) : (s.portClear a m).tmrRun = s.tmrRun := rfl
@[simp] theorem State.portClear_hostq (a : PortAddr) (m : Byte) : (s.portClear a m).hostq = s.hostq := rfl
@[simp] theorem State.portClear_program (a : PortAddr) (m : Byte) : (s.portClear a m).program = s.program := rfl
@[simp] theorem State.portClear_schedule (a : PortAddr) (m : Byte) : (s.portClear a m).schedule = s.schedule := rfl
@[simp] theorem State.portClear_cfg (a : PortAddr) (m : Byte) : (s.portClear a m).cfg = s.cfg := rfl
@[simp] theorem State.portClear_nCh (a : PortAddr) (m : Byte) : (s.portClear a m).nCh = s.nCh := by simp [State.nCh]

/-! ### portDrive changes `OUT` only -/

@[simp] theorem State.portDrive_cnt (a : PortAddr) (m : Byte) (l : Level) : (s.portDrive a m l).cnt = s.cnt := by cases l <;> rfl
@[simp] theorem State.portDrive_defpol (a : PortAddr) (m : Byte) (l : Level) : (s.portDrive a m l).defpol = s.defpol := by cases l <;> rfl
@[simp] theorem State.portDrive_ch (a : PortAddr) (m : Byte) (l : Level) : (s.portDrive a m l).ch = s.ch := by cases l <;> rfl
@[simp] theorem State.portDrive_mode (a : PortAddr) (m : Byte) (l : Level) : (s.portDrive a m l).mode = s.mode := by cases l <;> rfl
@[simp] theorem State.portDrive_tmrRun (a : PortAddr) (m : Byte) (l : Level) : (s.portDrive a m l).tmrRun = s.tmrRun := by cases l <;> rfl
@[simp] theorem State.portDrive_hostq (a : PortAddr) (m : Byte) (l : Level) : (s.portDrive a m l).hostq = s.hostq := by cases l <;> rfl
@[simp] theorem State.portDrive_program (a : PortAddr) (m : Byte) (l : Level) : (s.portDrive a m l).program = s.program := by cases l <;> rfl
@[simp] theorem State.portDrive_schedule (a : PortAddr) (m : Byte) (l : Level) : (s.portDrive a m l).schedule = s.schedule := by cases l <;> rfl
@[simp] theorem State.portDrive_cfg (a : PortAddr) (m : Byte) (l : Level) : (s.portDrive a m l).cfg = s.cfg := by cases l <;> rfl
@[simp] theorem State.portDrive_nCh (a : PortAddr) (m : Byte) (l : Level) : (s.portDrive a m l).nCh = s.nCh := by simp [State.nCh]

/-! ### driveOn changes `OUT` only -/

@[simp] theorem State.driveOn_cnt (i : Nat) : (s.driveOn i).cnt = s.cnt := by
  unfold State.driveOn; split <;> simp
@[simp] theorem State.driveOn_defpol (i : Nat) : (s.driveOn i).defpol = s.defpol := by
  unfold State.driveOn; split <;> simp
@[simp] theorem State.driveOn_ch (i : Nat) : (s.driveOn i).ch = s.ch := by
  unfold State.driveOn; split <;> simp
@[simp] theorem State.driveOn_mode (i : Nat) : (s.driveOn i).mode = s.mode := by
  unfold State.driveOn; split <;> simp
@[simp] theorem State.driveOn_tmrRun (i : Nat) : (s.driveOn i).tmrRun = s.tmrRun := by
  unfold State.driveOn; split <;> simp
@[simp] theorem State.driveOn_hostq (i : Nat) : (s.driveOn i).hostq = s.hostq := by
  unfold State.driveOn; split <;> simp
@[simp] theorem State.driveOn_program (i : Nat) : (s.driveOn i).program = s.program := by
  unfold State.driveOn; split <;> simp
@[simp] theorem State.driveOn_schedule (i : Nat) : (s.driveOn i).schedule = s.schedule := by
  unfold State.driveOn; split <;> simp
@[simp] theorem State.driveOn_cfg (i : Nat) : (s.driveOn i).cfg = s.cfg := by
  unfold State.driveOn; split <;> simp
@[simp] theorem State.driveOn_nCh (i : Nat) : (s.driveOn i).nCh = s.nCh := by simp [State.nCh]

/-! ### driveOff changes `OUT` only -/

@[simp] theorem State.driveOff_cnt (i : Nat) : (s.driveOff i).cnt = s.cnt := by
  unfold State.driveOff; split <;> simp
@[simp] theorem State.driveOff_defpol (i : Nat) : (s.driveOff i).defpol = s.defpol := by
  unfold State.driveOff; split <;> simp
@[simp] theorem State.driveOff_ch (i : Nat) : (s.driveOff i).ch = s.ch := by
  unfold State.driveOff; split <;> simp
@[simp] theorem State.driveOff_mode (i : Nat) : (s.driveOff i).mode = s.mode := by
  unfold State.driveOff; split <;> simp
@[simp] theorem State.driveOff_tmrRun (i : Nat) : (s.driveOff i).tmrRun = s.tmrRun := by
  unfold State.driveOff; split <;> simp
@[simp] theorem State.driveOff_hostq (i : Nat) : (s.driveOff i).hostq = s.hostq := by
  unfold State.driveOff; split <;> simp
@[simp] theorem State.driveOff_program (i : Nat) : (s.driveOff i).program = s.program := by
  unfold State.driveOff; split <;> simp
@[simp] theorem State.driveOff_schedule (i : Nat) : (s.driveOff i).schedule = s.schedule := by
  unfold State.driveOff; split <;> simp
@[simp] theorem State.driveOff_cfg (i : Nat) : (s.driveOff i).cfg = s.cfg := by
  unfold State.driveOff; split <;> simp
@[simp] theorem State.driveOff_nCh (i : Nat) : (s.driveOff i).nCh = s.nCh := by simp [State.nCh]

/-! ### writePinLevel changes `OUT` only -/

@[simp] theorem State.writePinLevel_cnt (p : Byte) (l : Level) : (s.writePinLevel p l).cnt = s.cnt := by
  unfold State.writePinLevel; split <;> simp
@[simp] theorem State.writePinLevel_defpol (p : Byte) (l : Level) : (s.writePinLevel p l).defpol = s.defpol := by
  unfold State.writePinLevel; split <;> simp
@[simp] theorem State.writePinLevel_ch (p : Byte) (l : Level) : (s.writePinLevel p l).ch = s.ch := by
  unfold State.writePinLevel; split <;> simp
@[simp] theorem State.writePinLevel_mode (p : Byte) (l : Level) : (s.writePinLevel p l).mode = s.mode := by
  unfold State.writePinLevel; split <;> simp
@[simp] theorem State.writePinLevel_tmrRun (p : Byte) (l : Level) : (s.writePinLevel p l).tmrRun = s.tmrRun := by
  unfold State.writePinLevel; split <;> simp
@[simp] theorem State.writePinLevel_hostq (p : Byte) (l : Level) : (s.writePinLevel p l).hostq = s.hostq := by
  unfold State.writePinLevel; split <;> simp
@[simp] theorem State.writePinLevel_program (p : Byte) (l : Level) : (s.writePinLevel p l).program = s.program := by
  unfold State.writePinLevel; split <;> simp
@[simp] theorem State.writePinLevel_schedule (p : Byte) (l : Level) : (s.writePinLevel p l).schedule = s.schedule := by
  unfold State.writePinLevel; split <;> simp
@[simp] theorem State.writePinLevel_cfg (p : Byte) (l : Level) : (s.writePinLevel p l).cfg = s.cfg := by
  unfold State.writePinLevel; split <;> simp
@[simp] theorem State.writePinLevel_nCh (p : Byte) (l : Level) : (s.writePinLevel p l).nCh = s.nCh := by simp [State.nCh]

/-! ### foreignWrite changes `OUT` only -/

@[simp] theorem State.foreignWrite_cnt (a : PortAddr) (v : Byte) : (s.foreignWrite a v).cnt = s.cnt := by
  unfold State.foreignWrite; split <;> simp
@[simp] theorem State.foreignWrite_defpol (a : PortAddr) (v : Byte) : (s.foreignWrite a v).defpol = s.defpol := by
  unfold State.foreignWrite; split <;> simp
@[simp] theorem State.foreignWrite_ch (a : PortAddr) (v : Byte) : (s.foreignWrite a v).ch = s.ch := by
  unfold State.foreignWrite; split <;> simp
@[simp] theorem State.foreignWrite_mode (a : PortAddr) (v : Byte) : (s.foreignWrite a v).mode = s.mode := by
  unfold State.foreignWrite; split <;> simp
@[simp] theorem State.foreignWrite_tmrRun (a : PortAddr) (v : Byte) : (s.foreignWrite a v).tmrRun = s.tmrRun := by
  unfold State.foreignWrite; split <;> simp
@[simp] theorem State.foreignWrite_hostq (a : PortAddr) (v : Byte) : (s.foreignWrite a v).hostq = s.hostq := by
  unfold State.foreignWrite; split <;> simp
@[simp] theorem State.foreignWrite_program (a : PortAddr) (v : Byte) : (s.foreignWrite a v).program = s.program := by
  unfold State.foreignWrite; split <;> simp
@[simp] theorem State.foreignWrite_schedule (a : PortAddr) (v : Byte) : (s.foreignWrite a v).schedule = s.schedule := by
  unfold State.foreignWrite; split <;> simp
@[simp] theorem State.foreignWrite_cfg (a : PortAddr) (v : Byte) : (s.foreignWrite a v).cfg = s.cfg := by
  unfold State.foreignWrite; split <;> simp
@[simp] theorem State.foreignWrite_nCh (a : PortAddr) (v : Byte) : (s.foreignWrite a v).nCh = s.nCh := by simp [State.nCh]

end Sys2Proof.Machine
end

