-- ==== Sys2Proof/Laws/Ops.lean ====
section
/-!
SUPPORT. One spec lemma for each shared operation over the port space and for running micro-operations: what it can do, said once.
-/

namespace Sys2Proof.Machine

variable (s : State)

/-! ### Platform -/

/-- What `RESOLVE` answers is a port of the platform, for a non-negative pin. -/
theorem resolve_isPort {c : Config} {p : Byte} {a : PortAddr} {m : Byte} (h : c.resolve p = some (a, m)) :
    c.isPort a = true ∧ p.msb = false := by
  unfold Config.resolve at h
  split_ifs at h with hp
  split at h
  next e he =>
    have hmem := List.mem_of_find?_eq_some he
    simp only [Option.some.injEq, Prod.mk.injEq] at h
    refine ⟨?_, by simpa using hp⟩
    simp only [Config.isPort, List.any_eq_true]
    exact ⟨e, hmem, by simp [h.1]⟩
  next => simp at h

/-! ### The port primitives, register by register and bit by bit (R42, R43, R44) -/

theorem State.setOut_outAt_same (h : Memory.wf s.out = true) (a : PortAddr) (v : Byte) : (s.setOut a v).outAt a = v :=
  Memory.read_write_same h a v

theorem State.setOut_outAt_other {a b : PortAddr} (v : Byte) (h : b ≠ a) : (s.setOut a v).outAt b = s.outAt b :=
  Memory.read_write_other v h

theorem State.portDrive_wf (h : Memory.wf s.out = true) (a : PortAddr) (m : Byte) (l : Level) :
    Memory.wf (s.portDrive a m l).out = true := by
  cases l <;> exact Memory.write_wf h _ _

theorem State.portDrive_outAt_other {a b : PortAddr} (m : Byte) (l : Level) (h : b ≠ a) :
    (s.portDrive a m l).outAt b = s.outAt b := by
  cases l <;> exact Memory.read_write_other _ h

theorem State.portDrive_outAt_same (h : Memory.wf s.out = true) (a : PortAddr) (m : Byte) (l : Level) :
    (s.portDrive a m l).outAt a = match l with
      | .high => s.outAt a ||| m
      | .low  => s.outAt a &&& ~~~m := by
  cases l <;> exact Memory.read_write_same h _ _

/-- One bit after a drive: under the mask it has the level, elsewhere it is as before. -/
theorem State.portDrive_bit (h : Memory.wf s.out = true) (a b : PortAddr) (m : Byte) (l : Level) (k : Nat) (hk : k < 8) :
    ((s.portDrive a m l).outAt b).getLsbD k =
      if b = a ∧ m.getLsbD k = true then decide (l = .high) else (s.outAt b).getLsbD k := by
  by_cases hb : b = a
  · subst hb
    rw [s.portDrive_outAt_same h]
    cases l <;> cases hm : m.getLsbD k <;>
      simp only [BitVec.getLsbD_or, BitVec.getLsbD_and, BitVec.getLsbD_not, hm] <;> simp [hk]
  · simp [s.portDrive_outAt_other m l hb, hb]

/-! ### Running micro-operations -/

@[simp] theorem MicroOp.apply_cfg (op : MicroOp) : (op.apply s).cfg = s.cfg := by
  cases op <;> simp [MicroOp.apply]

@[simp] theorem MicroOp.apply_program (op : MicroOp) : (op.apply s).program = s.program := by
  cases op <;> simp [MicroOp.apply]

@[simp] theorem MicroOp.apply_schedule (op : MicroOp) : (op.apply s).schedule = s.schedule := by
  cases op <;> simp [MicroOp.apply]

@[simp] theorem MicroOp.apply_hostq (op : MicroOp) : (op.apply s).hostq = s.hostq := by
  cases op <;> simp [MicroOp.apply]

@[simp] theorem MicroOp.apply_nCh (op : MicroOp) : (op.apply s).nCh = s.nCh := by
  cases op <;> simp [MicroOp.apply]

/-- What a micro-operation can do: its effect where it is defined, the named fault elsewhere. -/
theorem runMicro_cases (op : MicroOp) :
    (op.defined s.cfg = true ∧ runMicro op s = .next (op.apply s)) ∨
      (op.defined s.cfg = false ∧ runMicro op s = .fault .unresolvedPin) := by
  unfold runMicro
  cases h : op.defined s.cfg <;> simp

@[simp] theorem runOps_nil : runOps [] s = .next s := rfl

theorem runOps_cons {op : MicroOp} (ops : List MicroOp) (h : op.defined s.cfg = true) :
    runOps (op :: ops) s = runOps ops (op.apply s) := by
  simp [runOps, runMicro, h]

end Sys2Proof.Machine
end

