-- ==== Sys2Proof/Laws/Tick.lean ====
section
/-!
SUPPORT. The two slot loops of `TICK`, said once: after the first `n` slots, what the table and the port space are (40_tick.md R84 to R87).
-/

namespace Sys2Proof.Machine

variable (s : State)

/-- A slot after the cycle-start part: faded if occupied (R84, R88). -/
def fadedIf (c : Slot) : Slot := if c.occupied then c.faded else c

@[simp] theorem fadedIf_occupied (c : Slot) : (fadedIf c).occupied = c.occupied := by
  unfold fadedIf; split <;> rfl

@[simp] theorem fadedIf_oreg (c : Slot) : (fadedIf c).oreg = c.oreg := by
  unfold fadedIf; split <;> rfl

@[simp] theorem fadedIf_mask (c : Slot) : (fadedIf c).mask = c.mask := by
  unfold fadedIf; split <;> rfl

@[simp] theorem fadedIf_pol (c : Slot) : (fadedIf c).pol = c.pol := by
  unfold fadedIf; split <;> rfl

/-- The port space after bringing one slot's bits to a level. -/
def driveOut (o : Memory) (c : Slot) (l : Level) : Memory :=
  match l with
  | .high => Memory.write o c.oreg (Memory.read o c.oreg ||| c.mask)
  | .low  => Memory.write o c.oreg (Memory.read o c.oreg &&& ~~~c.mask)

theorem State.portDrive_eq (c : Slot) (l : Level) :
    s.portDrive c.oreg c.mask l = { s with out := driveOut s.out c l } := by
  cases l <;> rfl

/-- The rising edge of one slot on the port space (R85). -/
def riseOut (o : Memory) (c : Slot) : Memory :=
  if c.occupied && c.current != 0#8 then driveOut o c (Polarity.onLevel c.pol) else o

/-- The falling edge of one slot on the port space (R86). -/
def fallOut (n : Byte) (o : Memory) (c : Slot) : Memory :=
  if c.occupied && c.current == n then driveOut o c (Polarity.offLevel c.pol) else o

theorem take_append_getElem? {α : Type} {l : List α} {n : Nat} {c : α} (f : α → α) (h : l[n]? = some c) :
    ((l.take n).map f ++ l.drop n)[n]? = some c := by
  have hn : n < l.length := (List.getElem?_eq_some_iff.1 h).1
  rw [List.getElem?_append_right (by simp)]
  simp [h, Nat.min_eq_left hn.le]

theorem take_append_modify {α : Type} {l : List α} {n : Nat} {c : α} (f g : α → α) (h : l[n]? = some c) :
    ((l.take n).map f ++ l.drop n).modify n g = (l.take n).map f ++ g c :: l.drop (n + 1) := by
  obtain ⟨hn, rfl⟩ := List.getElem?_eq_some_iff.1 h
  rw [List.drop_eq_getElem_cons hn]
  have key : ∀ (a b : List α) (x : α) (m : Nat), m = a.length → (a ++ x :: b).modify m g = a ++ g x :: b := by
    intro a b x m hm
    subst hm
    induction a with
    | nil => rfl
    | cons y a ih => simpa using ih
  exact key _ _ _ _ (by simp [hn.le])

theorem take_succ_map {α : Type} {l : List α} {n : Nat} {c : α} (f : α → α) (h : l[n]? = some c) :
    (l.take (n + 1)).map f = (l.take n).map f ++ [f c] := by
  rw [List.take_add_one, h]
  simp

/-- The cycle-start loop after its first `n` slots. -/
theorem cycle_prefix (n : Nat) (hn : n ≤ s.nCh) :
    (List.range n).foldl (fun t i => cycleSlot i t) s =
      { s with
        ch := (s.ch.take n).map fadedIf ++ s.ch.drop n
        out := ((s.ch.take n).map fadedIf).foldl riseOut s.out } := by
  induction n with
  | zero => simp
  | succ n ih =>
    have hlt : n < s.ch.length := hn
    obtain ⟨c, hc⟩ : ∃ c, s.ch[n]? = some c := ⟨s.ch[n], List.getElem?_eq_getElem hlt⟩
    rw [List.range_succ, List.foldl_append, ih (by omega), take_succ_map fadedIf hc, List.foldl_append]
    simp only [List.foldl_cons, List.foldl_nil, cycleSlot, take_append_getElem? fadedIf hc]
    by_cases ho : c.occupied = true
    · have hf : fadedIf c = c.faded := by simp [fadedIf, ho]
      have ho' : c.faded.occupied = true := ho
      have hg : ((s.ch.take n).map fadedIf ++ c.faded :: s.ch.drop (n + 1))[n]? = some c.faded := by
        rw [List.getElem?_append_right (by simp)]
        simp [Nat.min_eq_left hlt.le]
      simp only [ho, if_true, State.modifySlot, take_append_modify fadedIf Slot.faded hc, hf, List.append_assoc,
        List.cons_append, List.nil_append]
      split_ifs with h0
      · simp [riseOut, h0]
      · simp only [State.driveOn, hg, State.portDrive_eq, riseOut, ho']
        simp [h0]
    · have hf : fadedIf c = c := by simp [fadedIf, ho]
      have hd : s.ch.drop n = c :: s.ch.drop (n + 1) := by
        obtain ⟨h, rfl⟩ := List.getElem?_eq_some_iff.1 hc
        exact List.drop_eq_getElem_cons h
      simp [ho, hf, hd, riseOut]

/-- The comparator loop after its first `n` slots. -/
theorem compare_prefix (n : Nat) (hn : n ≤ s.nCh) :
    (List.range n).foldl (fun t i => compareSlot i t) s = { s with out := (s.ch.take n).foldl (fallOut s.cnt) s.out } := by
  induction n with
  | zero => simp
  | succ n ih =>
    have hlt : n < s.ch.length := hn
    obtain ⟨c, hc⟩ : ∃ c, s.ch[n]? = some c := ⟨s.ch[n], List.getElem?_eq_getElem hlt⟩
    rw [List.range_succ, List.foldl_append, ih (by omega), List.take_add_one, hc]
    simp only [List.foldl_cons, List.foldl_nil, Option.toList_some, List.foldl_append, compareSlot, hc, comparatorHit,
      fallOut]
    by_cases h : (c.occupied && c.current == s.cnt) = true
    · simp only [if_pos h, State.driveOff, hc, State.portDrive_eq]
    · simp only [h, if_false, Bool.false_eq_true]

/-- The whole tick routine: the counter, the table and the port space it leaves. -/
theorem tickRoutine_eq :
    tickRoutine s =
      if s.cnt + 1#8 = 0#8 then
        { s with
          cnt := s.cnt + 1#8
          ch := s.ch.map fadedIf
          out := (s.ch.map fadedIf).foldl (fallOut (s.cnt + 1#8)) ((s.ch.map fadedIf).foldl riseOut s.out) }
      else { s with cnt := s.cnt + 1#8, out := s.ch.foldl (fallOut (s.cnt + 1#8)) s.out } := by
  by_cases h : s.cnt + 1#8 = 0#8
  · have h1 := cycle_prefix (s.setCnt (s.cnt + 1#8)) s.nCh (le_refl _)
    simp only [State.setCnt_ch, State.setCnt_out, State.nCh, List.take_length, List.drop_length, List.append_nil] at h1
    simp only [tickRoutine, cycleStart, State.setCnt_cnt, h, beq_self_eq_true, if_true, forSlots, State.setCnt_nCh]
    rw [State.nCh, ← h, h1, compare_prefix _ _ (by simp [State.nCh])]
    simp [State.nCh, State.setCnt, List.take_of_length_le]
  · simp only [tickRoutine, cycleStart, State.setCnt_cnt, beq_iff_eq, h, if_false, forSlots]
    rw [compare_prefix _ _ (le_refl _)]
    simp [State.nCh, State.setCnt]

/-- Where `TICK` completes, and with what (R90, R136). -/
theorem execTick_cases :
    (s.tmrRun = false ∧ execTick s = .next s) ∨
      (s.tmrRun = true ∧ s.portsOk = true ∧ execTick s = .next (tickRoutine s)) ∨
      (s.tmrRun = true ∧ s.portsOk = false ∧ execTick s = .fault .badPortAddress) := by
  unfold execTick takeTick
  cases s.tmrRun <;> cases s.portsOk <;> simp

end Sys2Proof.Machine
end

