-- ==== Sys2Proof/Laws/Drive.lean ====
section
/-!
SUPPORT. The two drive loops of `TICK` bit by bit (40_tick.md R85, R86), and where `TICK` completes (R90).
-/

namespace Sys2Proof.Machine

/-- The condition of R90, slot by slot. -/
theorem portsOk_iff (s : State) :
    s.portsOk = true ↔ ∀ c ∈ s.ch, c.occupied = true → s.cfg.isPort c.oreg = true := by
  simp only [State.portsOk, List.all_eq_true, Slot.free, Slot.occupied]
  refine ⟨fun h c hc ho => ?_, fun h c hc => ?_⟩
  · have := h c hc
    simp_all
  · have := h c hc
    cases hm : c.pin.msb <;> simp_all

/-- The counter wraps from 255 only (R82). -/
theorem succ_eq_zero_iff (b : Byte) : b + 1#8 = 0#8 ↔ b = 255#8 := by
  refine ⟨fun h => by bv_omega, ?_⟩
  rintro rfl
  rfl

/-- `TICK` with the timer running and every occupied slot at a port runs the routine. -/
theorem execTick_next (s : State) (h1 : s.tmrRun = true)
    (h2 : ∀ c ∈ s.ch, c.occupied = true → s.cfg.isPort c.oreg = true) : execTick s = .next (tickRoutine s) := by
  rcases execTick_cases s with h | h | h
  · simp_all
  · exact h.2.2
  · rw [(portsOk_iff s).2 h2] at h
    simp at h

theorem driveOut_wf {o : Memory} (h : Memory.wf o = true) (c : Slot) (l : Level) : Memory.wf (driveOut o c l) = true := by
  cases l <;> exact Memory.write_wf h _ _

/-- One bit after one slot's drive. -/
theorem driveOut_bit {o : Memory} (h : Memory.wf o = true) (c : Slot) (l : Level) (b : PortAddr) (k : Nat) (hk : k < 8) :
    (Memory.read (driveOut o c l) b).getLsbD k =
      if b = c.oreg ∧ c.mask.getLsbD k = true then decide (l = .high) else (Memory.read o b).getLsbD k := by
  have := State.portDrive_bit { State.reset with out := o } h c.oreg b c.mask l k hk
  rw [State.portDrive_eq] at this
  exact this

/-- A drive of the slots that `P` picks, to the level `L` gives: the shape of both loops. -/
def condDrive (P : Slot → Bool) (L : Slot → Level) (o : Memory) (c : Slot) : Memory := if P c then driveOut o c (L c) else o

theorem riseOut_eq :
    riseOut = condDrive (fun c => c.occupied && c.current != 0#8) (fun c => Polarity.onLevel c.pol) := rfl

theorem fallOut_eq (n : Byte) :
    fallOut n = condDrive (fun c => c.occupied && c.current == n) (fun c => Polarity.offLevel c.pol) := rfl

variable (P : Slot → Bool) (L : Slot → Level)

theorem condDrive_wf (l : List Slot) {o : Memory} (h : Memory.wf o = true) :
    Memory.wf (l.foldl (condDrive P L) o) = true := by
  induction l generalizing o with
  | nil => exact h
  | cons c l ih =>
    apply ih
    unfold condDrive
    split
    · exact driveOut_wf h _ _
    · exact h

/-- A bit that is under no picked slot's mask stays. -/
theorem condDrive_skip (l : List Slot) {o : Memory} (h : Memory.wf o = true) (a : PortAddr) (k : Nat) (hk : k < 8)
    (hn : ∀ c ∈ l, P c = true → c.oreg = a → c.mask.getLsbD k = false) :
    (Memory.read (l.foldl (condDrive P L) o) a).getLsbD k = (Memory.read o a).getLsbD k := by
  induction l generalizing o with
  | nil => rfl
  | cons c l ih =>
    have hw : Memory.wf (condDrive P L o c) = true := condDrive_wf P L [c] h
    rw [List.foldl_cons, ih hw fun d hd => hn d (by simp [hd])]
    unfold condDrive
    split
    next hp =>
      rw [driveOut_bit h _ _ _ _ hk, if_neg]
      rintro ⟨e, hm⟩
      rw [hn c (by simp) hp e.symm] at hm
      cases hm
    next => rfl

/-- A bit under the mask of one picked slot, and of no other, has that slot's level. -/
theorem condDrive_hit (l : List Slot) {o : Memory} (h : Memory.wf o = true) (i : Nat) (c : Slot) (k : Nat) (hk : k < 8)
    (hi : l[i]? = some c) (hP : P c = true) (hm : c.mask.getLsbD k = true)
    (hn : ∀ j d, l[j]? = some d → j ≠ i → P d = true → d.oreg = c.oreg → d.mask.getLsbD k = false) :
    (Memory.read (l.foldl (condDrive P L) o) c.oreg).getLsbD k = decide (L c = .high) := by
  induction l generalizing o i with
  | nil => simp at hi
  | cons x l ih =>
    have hw : Memory.wf (condDrive P L o x) = true := condDrive_wf P L [x] h
    rw [List.foldl_cons]
    cases i with
    | zero =>
      simp only [List.getElem?_cons_zero, Option.some.injEq] at hi
      subst hi
      rw [condDrive_skip P L l hw _ _ hk]
      · simp only [condDrive, hP, if_true]
        rw [driveOut_bit h _ _ _ _ hk, if_pos ⟨rfl, hm⟩]
      · intro d hd hp ho
        obtain ⟨j, hj⟩ := List.getElem?_of_mem hd
        exact hn (j + 1) d (by simpa using hj) (by omega) hp ho
    | succ i =>
      apply ih hw i (by simpa using hi)
      intro j d hj hne
      exact hn (j + 1) d (by simpa using hj) (by omega)

end Sys2Proof.Machine
end

