-- ==== Sys2Proof/Laws/Host.lean ====
section
/-!
SUPPORT. Running a command's micro-operations, said once: where all are defined they have their effects in order, and a field write for
every matched slot is a map over the table (41_host_commands.md R100, R101).
-/

namespace Sys2Proof.Machine

variable (s : State)

@[simp] theorem State.afterOps_nil : s.afterOps [] = s := rfl

@[simp] theorem State.afterOps_cons (op : MicroOp) (ops : List MicroOp) :
    s.afterOps (op :: ops) = (op.apply s).afterOps ops := rfl

theorem State.afterOps_append (xs ys : List MicroOp) : s.afterOps (xs ++ ys) = (s.afterOps xs).afterOps ys := by
  simp [State.afterOps, List.foldl_append]

@[simp] theorem State.afterOps_cfg (ops : List MicroOp) : (s.afterOps ops).cfg = s.cfg := by
  induction ops generalizing s with
  | nil => rfl
  | cons op ops ih => simp [ih]

@[simp] theorem State.afterOps_nCh (ops : List MicroOp) : (s.afterOps ops).nCh = s.nCh := by
  induction ops generalizing s with
  | nil => rfl
  | cons op ops ih => simp [ih]

@[simp] theorem State.afterOps_hostq (ops : List MicroOp) : (s.afterOps ops).hostq = s.hostq := by
  induction ops generalizing s with
  | nil => rfl
  | cons op ops ih => simp [ih]

/-- Micro-operations that are all defined run to their effects. -/
theorem runOps_defined {ops : List MicroOp} (h : ∀ op ∈ ops, op.defined s.cfg = true) :
    runOps ops s = .next (s.afterOps ops) := by
  induction ops generalizing s with
  | nil => rfl
  | cons op ops ih =>
    rw [runOps_cons s ops (h op (by simp)), ih _ fun o ho => by simpa using h o (by simp [ho])]
    rfl

/-- What running a list can end in: the effects of all of it, or the one named fault. -/
theorem runOps_cases (ops : List MicroOp) :
    ((∀ op ∈ ops, op.defined s.cfg = true) ∧ runOps ops s = .next (s.afterOps ops)) ∨
      ((∃ op ∈ ops, op.defined s.cfg = false) ∧ runOps ops s = .fault .unresolvedPin) := by
  induction ops generalizing s with
  | nil => exact .inl ⟨by simp, rfl⟩
  | cons op ops ih =>
    rcases runMicro_cases s op with ⟨h, hr⟩ | ⟨h, hr⟩
    · rcases ih (op.apply s) with ⟨ha, hn⟩ | ⟨hx, hf⟩
      · exact .inl ⟨by simpa [h] using ha, by simp [runOps, hr, hn]⟩
      · refine .inr ⟨?_, by simp [runOps, hr, hf]⟩
        obtain ⟨o, ho, hd⟩ := hx
        exact ⟨o, by simp [ho], by simpa using hd⟩
    · exact .inr ⟨⟨op, by simp, h⟩, by simp [runOps, hr]⟩

/-- Field writes to the slots picked by `p`, one after the other, are a map over the table. -/
theorem modify_picked (l : List Slot) (p : Slot → Bool) (g : Slot → Slot) (n : Nat) (hn : n ≤ l.length) :
    ((List.range n).filter fun i => (l[i]?).any p).foldl (fun t i => t.modify i g) l =
      (l.take n).map (fun c => if p c then g c else c) ++ l.drop n := by
  induction n with
  | zero => simp
  | succ n ih =>
    obtain ⟨c, hc⟩ : ∃ c, l[n]? = some c := ⟨l[n], List.getElem?_eq_getElem (by omega)⟩
    have hd : l.drop n = c :: l.drop (n + 1) := by
      obtain ⟨h, rfl⟩ := List.getElem?_eq_some_iff.1 hc
      exact List.drop_eq_getElem_cons h
    rw [List.range_succ, List.filter_append, List.foldl_append, ih (by omega), take_succ_map _ hc]
    by_cases hp : p c = true
    · have : ([n].filter fun i => (l[i]?).any p) = [n] := by simp [hc, hp]
      rw [this]
      simp only [List.foldl_cons, List.foldl_nil]
      rw [take_append_modify _ g hc]
      simp [hp]
    · have : ([n].filter fun i => (l[i]?).any p) = [] := by simp [hc, hp]
      rw [this]
      simp [hp, hd]

/-- The matched slots, one field write each. -/
theorem modify_matched (p : Byte) (g : Slot → Slot) :
    (s.matchPin p).foldl (fun t i => t.modify i g) s.ch = s.ch.map fun c => if c.matchesPin p then g c else c := by
  have := modify_picked s.ch (Slot.matchesPin p) g s.nCh (le_refl _)
  simpa [State.nCh, State.matchPin] using this

/-- `MATCH(p)`, member by member (R100). -/
theorem mem_matchPin {p : Byte} {i : Nat} :
    i ∈ s.matchPin p ↔ ∃ c, s.ch[i]? = some c ∧ c.matchesPin p = true := by
  simp only [State.matchPin, List.mem_filter, List.mem_range, State.nCh, Option.any_eq_true]
  refine ⟨fun h => h.2, fun ⟨c, hc, hp⟩ => ⟨(List.getElem?_eq_some_iff.1 hc).1, c, hc, hp⟩⟩

/-- A list of field writes, one slot each, is a fold over the table. -/
theorem afterOps_map_slots {α : Type} (l : List α) (F : α → MicroOp) (idx : α → Nat) (g : α → Slot → Slot)
    (h : ∀ a t, (F a).apply t = t.modifySlot (idx a) (g a)) :
    s.afterOps (l.map F) = { s with ch := l.foldl (fun c a => c.modify (idx a) (g a)) s.ch } := by
  induction l generalizing s with
  | nil => rfl
  | cons a l ih =>
    simp only [List.map_cons, State.afterOps_cons, h, ih]
    rfl

/-- Several field writes for each slot of a list. -/
theorem afterOps_flatMap_slots (l : List Nat) (F : Nat → List MicroOp) (g : Slot → Slot)
    (h : ∀ a t, State.afterOps t (F a) = t.modifySlot a g) :
    s.afterOps (l.flatMap F) = { s with ch := l.foldl (fun c a => c.modify a g) s.ch } := by
  induction l generalizing s with
  | nil => rfl
  | cons a l ih =>
    simp only [List.flatMap_cons, State.afterOps_append, h, ih]
    rfl

/-- The immediate path writes the counter only (R108). -/
theorem afterOps_immediate (t : State) (imm : Bool) :
    t.afterOps (immediateOps imm s) = { t with cnt := if imm then s.cfg.immReload else t.cnt } := by
  cases imm <;> rfl

theorem immediateOps_defined (imm : Bool) : ∀ op ∈ immediateOps imm s, op.defined s.cfg = true := by
  cases imm <;> simp [immediateOps, MicroOp.defined]

/-- A micro-operation does not look at `HOSTQ`, at the program or at the schedule. -/
theorem MicroOp.apply_setHostq (op : MicroOp) (q : List MicroOp) : op.apply (s.setHostq q) = (op.apply s).setHostq q := by
  cases op <;> try rfl
  simp only [MicroOp.apply, State.writePinLevel, State.setHostq_cfg]
  split
  next l _ _ _ _ => cases l <;> rfl
  next => rfl

theorem MicroOp.apply_setProgram (op : MicroOp) (q : List Word) : op.apply (s.setProgram q) = (op.apply s).setProgram q := by
  cases op <;> try rfl
  simp only [MicroOp.apply, State.writePinLevel, State.setProgram_cfg]
  split
  next l _ _ _ _ => cases l <;> rfl
  next => rfl

theorem MicroOp.apply_setSchedule (op : MicroOp) (q : List Turn) :
    op.apply (s.setSchedule q) = (op.apply s).setSchedule q := by
  cases op <;> try rfl
  simp only [MicroOp.apply, State.writePinLevel, State.setSchedule_cfg]
  split
  next l _ _ _ _ => cases l <;> rfl
  next => rfl

theorem State.setHostq_afterOps (q ops : List MicroOp) : (s.setHostq q).afterOps ops = (s.afterOps ops).setHostq q := by
  induction ops generalizing s with
  | nil => rfl
  | cons op ops ih => rw [State.afterOps_cons, MicroOp.apply_setHostq, ih]; rfl

theorem State.setProgram_afterOps (q : List Word) (ops : List MicroOp) :
    (s.setProgram q).afterOps ops = (s.afterOps ops).setProgram q := by
  induction ops generalizing s with
  | nil => rfl
  | cons op ops ih => rw [State.afterOps_cons, MicroOp.apply_setProgram, ih]; rfl

theorem State.setSchedule_afterOps (q : List Turn) (ops : List MicroOp) :
    (s.setSchedule q).afterOps ops = (s.afterOps ops).setSchedule q := by
  induction ops generalizing s with
  | nil => rfl
  | cons op ops ih => rw [State.afterOps_cons, MicroOp.apply_setSchedule, ih]; rfl

/-- A command that starts, with `HOSTQ` empty, and whose micro-operations are all defined: what `exec` and `runCommand` answer. -/
theorem runCommand_start {i : Instr} {ops : List MicroOp} (hq : s.hostq = []) (he : exec i s = startCommand ops s)
    (hd : ∀ op ∈ ops, op.defined s.cfg = true) :
    exec i s = .next (s.setHostq ops) ∧ runCommand i s = .next (s.afterOps ops) := by
  have h : exec i s = .next (s.setHostq ops) := by
    rw [he, startCommand, hq]
    rfl
  refine ⟨h, ?_⟩
  have e : (s.setHostq ops).setHostq [] = s := by
    cases s
    simp_all [State.setHostq]
  rw [runCommand, h]
  simp only [State.setHostq_hostq]
  rw [e, runOps_defined s hd]

/-! ### One equation per arm of `exec` -/

theorem exec_init (a : Byte) : exec (.init a) s = execInit a s := rfl
theorem exec_setduty (p v : Byte) (imm : Bool) : exec (.setduty p v imm) s = execSetduty p v imm s := rfl
theorem exec_setpol (p a : Byte) : exec (.setpol p a) s = execSetpol p a s := rfl
theorem exec_detach (p : Byte) : exec (.detach p) s = execDetach p s := rfl
theorem exec_setrate (p u d : Byte) : exec (.setrate p u d) s = execSetrate p u d s := rfl
theorem exec_tick : exec .tick s = execTick s := rfl

/-- Every meaning of a host command: it starts a list of micro-operations, has no effect, or stops by a name of its own. -/
theorem exec_host_cases (i : Instr) (hi : i ≠ .tick) :
    (∃ ops, exec i s = .next (s.setHostq (s.hostq ++ ops))) ∨ (∃ r, exec i s = .refused r) ∨
      (∃ p, i = .detach p ∧ s.tmrRun = true ∧ exec i s = .fault .badPortAddress) := by
  have hn : Host.Outcome.next s = (.next (s.setHostq (s.hostq ++ [])) : Host.Outcome State Fault Refusal) := by
    simp [State.setHostq]
  cases i with
  | init a =>
    rw [exec_init, execInit]
    cases s.tmrRun
    · exact .inl ⟨_, rfl⟩
    · exact .inr (.inl ⟨_, rfl⟩)
  | setduty p v imm =>
    rw [exec_setduty, execSetduty, afterInit]
    cases s.tmrRun
    · exact .inr (.inl ⟨_, rfl⟩)
    · cases isBroadcast p
      · simp only [if_true, Bool.false_eq_true, if_false]
        cases s.matchPin p with
        | cons j js => exact .inl ⟨_, rfl⟩
        | nil =>
          unfold attach
          cases s.firstFree with
          | none => exact .inl ⟨[], hn⟩
          | some f =>
            cases s.cfg.resolve p with
            | none => exact .inr (.inl ⟨_, rfl⟩)
            | some r => exact .inl ⟨_, rfl⟩
      · exact .inl ⟨_, rfl⟩
  | setpol p a =>
    rw [exec_setpol, execSetpol, afterInit]
    cases s.tmrRun
    · exact .inr (.inl ⟨_, rfl⟩)
    · exact .inl ⟨_, rfl⟩
  | detach p =>
    rw [exec_detach, execDetach, afterInit]
    cases h : s.tmrRun
    · exact .inr (.inl ⟨_, rfl⟩)
    · cases (s.matchPin p).all s.detachable
      · exact .inr (.inr ⟨p, rfl, rfl, rfl⟩)
      · exact .inl ⟨_, rfl⟩
  | setrate p u d =>
    rw [exec_setrate, execSetrate, afterInit]
    cases s.tmrRun
    · exact .inr (.inl ⟨_, rfl⟩)
    · exact .inl ⟨_, rfl⟩
  | tick => exact absurd rfl hi

/-- The step, turn by turn: the inversion every invariant goes through (R51). -/
theorem step_cases {t : State} (h : step s = .next t) :
    (∃ s0, s.takeTurn = (.strobe, s0) ∧ exec .tick s0 = .next t) ∨
    (∃ s0 a v, s.takeTurn = (.foreign a v, s0) ∧ t = s0.foreignWrite a v) ∨
    (∃ s0 op ops, s.takeTurn = (.host, s0) ∧ s0.hostq = op :: ops ∧ op.defined s0.cfg = true ∧
      t = op.apply (s0.setHostq ops)) ∨
    (∃ s0 w ws i, s.takeTurn = (.host, s0) ∧ s0.hostq = [] ∧ s0.program = w :: ws ∧ i ≠ .tick ∧
      exec i (s0.setProgram ws) = .next t) ∨
    (∃ s0, s.takeTurn = (.host, s0) ∧ s0.hostq = [] ∧ (t = s0 ∨ ∃ w ws, s0.program = w :: ws ∧ t = s0.setProgram ws)) := by
  unfold step at h
  rcases hT : s.takeTurn with ⟨turn, s0⟩
  rw [hT] at h
  cases turn with
  | strobe => exact .inl ⟨s0, rfl, h⟩
  | foreign a v =>
    simp only [takeInput, Host.Outcome.next.injEq] at h
    exact .inr (.inl ⟨s0, a, v, rfl, h.symm⟩)
  | host =>
    simp only [takeInput, hostTurn] at h
    split at h
    next op ops hq =>
      rcases runMicro_cases (s0.setHostq ops) op with ⟨hd, hr⟩ | ⟨hd, hr⟩
      · rw [hr, Host.Outcome.next.injEq] at h
        exact .inr (.inr (.inl ⟨s0, op, ops, rfl, hq, by simpa using hd, h.symm⟩))
      · rw [hr] at h
        cases h
    next hq =>
      split at h
      next w ws hp =>
        unfold acceptWord at h
        split at h
        next i hi =>
          have : i ≠ .tick := by
            rintro rfl
            simp only [decode, decodeWord] at hi
            split_ifs at hi <;> simp at hi
          exact .inr (.inr (.inr (.inl ⟨s0, w, ws, i, rfl, hq, hp, this, h⟩)))
        next e hi =>
          rw [Host.Outcome.next.injEq] at h
          exact .inr (.inr (.inr (.inr ⟨s0, rfl, hq, .inr ⟨w, ws, hp, h.symm⟩⟩)))
      next hp =>
        rw [Host.Outcome.next.injEq] at h
        exact .inr (.inr (.inr (.inr ⟨s0, rfl, hq, .inl h.symm⟩)))

/-- Taking a turn changes the schedule only. -/
theorem takeTurn_eq {turn : Turn} {s0 : State} (h : s.takeTurn = (turn, s0)) : ∃ ts, s0 = s.setSchedule ts := by
  unfold State.takeTurn at h
  split at h
  next hs =>
    cases h
    exact ⟨[], by cases s; simp_all [State.setSchedule]⟩
  next t ts hs =>
    cases h
    exact ⟨ts, rfl⟩

end Sys2Proof.Machine
end

