-- ==== Sys2Proof/Laws/Operands.lean ====
section
/-!
SUPPORT. The operand forms in the spec's own terms: a pin as a signed number (30_encoding.md R63), channel matching and the first free slot
(41_host_commands.md R100, R105).
-/

namespace Sys2Proof.Machine

theorem toInt_nonneg_iff (b : Byte) : 0 ≤ b.toInt ↔ b.msb = false := by
  rw [BitVec.msb_eq_toInt]
  simp

theorem toInt_neg_iff (b : Byte) : b.toInt < 0 ↔ b.msb = true := by
  rw [BitVec.msb_eq_toInt]
  simp

/-- The condition of `MATCH(p)` on one slot, as R100 writes it. -/
theorem matchesPin_iff (p : Byte) (c : Slot) :
    c.matchesPin p = true ↔ 0 ≤ c.pin.toInt ∧ (p.toInt < 0 ∨ c.pin = p) := by
  simp [Slot.matchesPin, Slot.occupied, isBroadcast, toInt_nonneg_iff, toInt_neg_iff]

/-- A non-negative pin that no slot holds matches nothing. -/
theorem matchPin_eq_nil_iff {s : State} {p : Byte} (hp : 0 ≤ p.toInt) : s.matchPin p = [] ↔ ∀ d ∈ s.ch, d.pin ≠ p := by
  rw [List.eq_nil_iff_forall_not_mem]
  refine ⟨fun h d hd e => ?_, fun h i hi => ?_⟩
  · obtain ⟨j, hj⟩ := List.getElem?_of_mem hd
    exact h j ((mem_matchPin s).2 ⟨d, hj, (matchesPin_iff _ _).2 ⟨by rw [e]; exact hp, .inr e⟩⟩)
  · obtain ⟨c, hc, hm⟩ := (mem_matchPin s).1 hi
    rcases ((matchesPin_iff _ _).1 hm).2 with hm | hm
    · omega
    · exact h c (List.mem_of_getElem? hc) hm

theorem firstFree_eq_some {s : State} {f : Nat} {c : Slot} (hc : s.ch[f]? = some c) (hf : c.pin.toInt < 0)
    (hl : ∀ g d, g < f → s.ch[g]? = some d → 0 ≤ d.pin.toInt) : s.firstFree = some f := by
  have hlt : f < s.ch.length := (List.getElem?_eq_some_iff.1 hc).1
  rw [State.firstFree, List.find?_range_eq_some]
  refine ⟨by simp [hc, Slot.free, (toInt_neg_iff _).1 hf], by simpa [State.nCh] using hlt, fun g hg => ?_⟩
  rcases hd : s.ch[g]? with _ | d
  · simp
  · simp [Slot.free, (toInt_nonneg_iff _).1 (hl g d hg hd)]

theorem firstFree_eq_none_iff {s : State} : s.firstFree = none ↔ ∀ d ∈ s.ch, 0 ≤ d.pin.toInt := by
  rw [State.firstFree, List.find?_eq_none]
  refine ⟨fun h d hd => ?_, fun hf i _ => ?_⟩
  · obtain ⟨j, hj⟩ := List.getElem?_of_mem hd
    have := h j (by rw [List.mem_range]; exact (List.getElem?_eq_some_iff.1 hj).1)
    rw [toInt_nonneg_iff]
    simpa [hj, Slot.free] using this
  · simp only [Option.any_eq_true, not_exists, not_and, Bool.not_eq_true]
    intro c hc
    exact (toInt_nonneg_iff _).1 (hf c (List.mem_of_getElem? hc))

theorem detachable_iff (s : State) (p : Byte) :
    (s.matchPin p).all s.detachable = true ↔
      ∀ c ∈ s.ch, c.matchesPin p = true → s.cfg.isPort c.oreg = true ∧ s.cfg.validPin c.pin = true := by
  simp only [List.all_eq_true, mem_matchPin, State.detachable]
  constructor
  · intro h c hc hm
    obtain ⟨j, hj⟩ := List.getElem?_of_mem hc
    simpa [hj] using h j ⟨c, hj, hm⟩
  · rintro h i ⟨c, hc, hm⟩
    simpa [hc] using h c (List.mem_of_getElem? hc) hm

end Sys2Proof.Machine
end

