-- ==== Sys2Proof/Laws/PerInstr.lean ====
section
/-!
SUPPORT. The family `TableRow`: the encoding of an instruction is in its row of the opcode table (30_encoding.md R65, R68).
-/

namespace Sys2Proof.Laws.TableRow

/-- The input written for `i` matches the match and mask of its own row: `w & 0xFE000000` is the row's match for a command, the
strobe is 1 for the tick. -/
def Statement (i : Instr) : Prop :=
  match i, encode i with
  | .init _, .word w        => w &&& 0xFE000000#32 = 0x10000000#32
  | .setduty _ _ _, .word w => w &&& 0xFE000000#32 = 0x20000000#32
  | .setpol _ _, .word w    => w &&& 0xFE000000#32 = 0x30000000#32
  | .detach _, .word w      => w &&& 0xFE000000#32 = 0x40000000#32
  | .setrate _ _ _, .word w => w &&& 0xFE000000#32 = 0x50000000#32
  | .tick, .strobe b        => b = true
  | _, _                    => False

/-- The mask keeps only `op` and `rsvd` of a packed word. -/
theorem packWord_masked (op : BitVec 4) (flag : Bool) (pin a b : Byte) :
    packWord op flag pin a b &&& 0xFE000000#32 = (op ++ 0#28).setWidth 32 := by
  apply BitVec.eq_of_getLsbD_eq
  intro k hk
  have hc : ∀ k, k < 32 → (0xFE000000#32).getLsbD k = decide (25 ≤ k) := by decide
  simp only [BitVec.getLsbD_and, hc k hk]
  by_cases h : 25 ≤ k
  · simp only [packWord, BitVec.getLsbD_append, BitVec.getLsbD_setWidth, h, hk]
    by_cases h28 : k < 28
    · have h1 : ¬ k < 8 := by omega
      have h2 : ¬ k - 8 < 8 := by omega
      have h3 : ¬ k - 8 - 8 < 8 := by omega
      have h4 : ¬ k - 8 - 8 - 8 < 1 := by omega
      have h5 : k - 8 - 8 - 8 - 1 < 3 := by omega
      simp [h1, h2, h3, h4, h5, h28]
    · have h1 : ¬ k < 8 := by omega
      have h2 : ¬ k - 8 < 8 := by omega
      have h3 : ¬ k - 8 - 8 < 8 := by omega
      have h4 : ¬ k - 8 - 8 - 8 < 1 := by omega
      have h5 : ¬ k - 8 - 8 - 8 - 1 < 3 := by omega
      have h6 : k - 8 - 8 - 8 - 1 - 3 = k - 28 := by omega
      simp [h1, h2, h3, h4, h5, h6, h28]
  · have h28 : k < 28 := by omega
    rw [BitVec.getLsbD_setWidth, BitVec.getLsbD_append]
    simp [h, h28]

theorem init (pol : Byte) : Statement (.init pol) := packWord_masked 0x1#4 _ _ _ _
theorem setduty (pin value : Byte) (imm : Bool) : Statement (.setduty pin value imm) := packWord_masked 0x2#4 _ _ _ _
theorem setpol (pin pol : Byte) : Statement (.setpol pin pol) := packWord_masked 0x3#4 _ _ _ _
theorem detach (pin : Byte) : Statement (.detach pin) := packWord_masked 0x4#4 _ _ _ _
theorem setrate (pin up down : Byte) : Statement (.setrate pin up down) := packWord_masked 0x5#4 _ _ _ _
theorem tick : Statement .tick := rfl

end Sys2Proof.Laws.TableRow
end

