-- ==== Sys2Proof/Tests/Slice0.lean ====
section
/-!
SUPPORT. Tests on fixed values and, for every statement with hypotheses, a witness that meets them together. Expected results are those of
spec/30_encoding.md R73 and spec/95_test_vectors.md (the vector's name stands at each test), never the model's own answer.
-/

namespace Sys2Proof.Tests

open Sys2Proof.Machine

/-! ### Small states on the example platform of 95_test_vectors.md, five of its pins -/

def config (idle : Level) (reload : Byte) : Config where
  addrW := 8
  pins := [⟨3#8, 0x20, 0x08#8⟩, ⟨4#8, 0x20, 0x10#8⟩, ⟨5#8, 0x20, 0x20#8⟩, ⟨7#8, 0x20, 0x80#8⟩, ⟨9#8, 0x21, 0x02#8⟩]
  cntInit := 0#8
  immReload := reload
  idleLevel := idle
  tickCompare := 0
  fadeTerm := 16

/-- A state after INIT NORMAL with the given counter, table and `OUT[0x20]`. -/
def running (cnt : Byte) (ch : List Slot) (out20 : Byte) : State where
  cnt := cnt
  defpol := .normal
  ch := ch
  out := Memory.write [] 0x20 out20
  mode := []
  tmrRun := true
  hostq := []
  program := []
  schedule := []
  cfg := config .low 0#8

def freeSlot : Slot := ⟨0xFF#8, .normal, 0, 0#8, 0#8, 0#8, 0#8, 0#8⟩

/-- A Normal slot on pin 5 with zero rates. -/
def pin5 (target current : Byte) : Slot := ⟨5#8, .normal, 0x20, 0x20#8, target, current, 0#8, 0#8⟩

/-- What a test looks at in the next state; none when the machine stops. -/
def look {α : Type} (f : State → α) : Host.Outcome State Fault Refusal → Option α
  | .next t => some (f t)
  | .fault _ => none
  | .refused _ => none

/-- `CNT`, the `current` fields and `OUT[0x20]`: the columns of vector table B3. -/
def tickView (t : State) : Byte × List Byte × Byte := (t.cnt, t.ch.map (·.current), t.outAt 0x20)

/-! ### Decoding: words from R73 and B1, at least one for every constructor -/

theorem test_decode_init : decode (.word 0x10000100#32) = .ok (.init 1#8) ∧ decode (.word 0x100512FF#32) = .ok (.init 0x12#8) := by
  decide

theorem test_decode_setduty :
    decode (.word 0x21058000#32) = .ok (.setduty 5#8 128#8 true) ∧
    decode (.word 0x2005807B#32) = .ok (.setduty 5#8 128#8 false) ∧
    decode (.word 0x20800100#32) = .ok (.setduty 0x80#8 1#8 false) ∧
    decode (.word 0x207F0100#32) = .ok (.setduty 127#8 1#8 false) := by
  decide

theorem test_decode_setpol :
    decode (.word 0x30050200#32) = .ok (.setpol 5#8 2#8) ∧ decode (.word 0x31050100#32) = .ok (.setpol 5#8 1#8) := by
  decide

theorem test_decode_detach :
    decode (.word 0x40FF0000#32) = .ok (.detach 0xFF#8) ∧ decode (.word 0x40051234#32) = .ok (.detach 5#8) := by
  decide

theorem test_decode_setrate :
    decode (.word 0x50056400#32) = .ok (.setrate 5#8 100#8 0#8) ∧
    decode (.word 0x50050007#32) = .ok (.setrate 5#8 0#8 7#8) := by
  decide

/-- R68: the pattern of the tick event is the single bit 1. -/
theorem test_decode_tick : decode (.strobe true) = .ok .tick ∧ decode (.strobe false) = .error .noStrobe := by
  decide

theorem test_decode_reserved :
    [0x00000000#32, 0x60000000#32, 0xF0000000#32].map (fun w => decode (.word w)) =
      [.error .reservedOpcode, .error .reservedOpcode, .error .reservedOpcode] ∧
    [0x22058000#32, 0x28058000#32, 0x2F058000#32].map (fun w => decode (.word w)) =
      [.error .reservedBits, .error .reservedBits, .error .reservedBits] := by
  decide

theorem test_decodeTableWord :
    decodeTableWord 32 0x10000000 = some (.init 0#8) ∧ decodeTableWord 32 0x20000000 = some (.setduty 0#8 0#8 false) ∧
    decodeTableWord 32 0x30000000 = some (.setpol 0#8 0#8) ∧ decodeTableWord 32 0x40000000 = some (.detach 0#8) ∧
    decodeTableWord 32 0x50000000 = some (.setrate 0#8 0#8 0#8) ∧ decodeTableWord 8 1 = some .tick ∧
    decodeTableWord 1 1 = some .tick ∧ decodeTableWord 8 0 = none ∧ decodeTableWord 32 0x60000000 = none := by
  decide

/-! ### What the caller and the assembler check: one ill-formed term for each check (R70, R71, U2, U6) -/

theorem test_wellFormed_pin : Instr.wellFormed (config .low 0#8) (.setduty 6#8 1#8 false) = false ∧
    Instr.wellFormed (config .low 0#8) (.setduty 5#8 1#8 false) = true ∧
    Instr.wellFormed (config .low 0#8) (.setduty 0xFF#8 1#8 false) = true := by
  decide

theorem test_assembler_refuses_ranges :
    [AsmLine.init 256, .setduty 128 0 false, .setduty (-129) 0 false, .setduty 5 256 false, .setpol 128 0, .setpol 5 256,
     .detach 128, .detach (-129), .setrate 128 0 0, .setrate 5 256 0, .setrate 5 0 256, .setdutypct 128 50 false,
     .setdutypct 5 101 false, .setfadetime (-129) 0 0].map AsmLine.wellFormed = List.replicate 14 false := by
  decide

theorem test_assembler_accepts_bounds :
    [AsmLine.init 255, .setduty 127 255 false, .setduty (-128) 0 true, .setpol (-128) 255, .detach 127, .setrate (-128) 255 255,
     .tick 0, .setdutypct 127 100 false, .setfadetime 127 65535 0].map AsmLine.wellFormed = List.replicate 9 true := by
  decide

/-- B11. -/
theorem test_pseudo_commands :
    [0, 1, 2, 10, 25, 33, 50, 66, 75, 99, 100].map percentToDuty = [0, 2, 5, 25, 63, 84, 127, 168, 191, 252, 255] ∧
    [0, 16, 17, 100, 255, 1000, 2000, 4080, 4081, 65535].map (fadeRate (config .low 0#8)) =
      [0#8, 255#8, 240#8, 40#8, 16#8, 4#8, 2#8, 1#8, 0#8, 0#8] ∧
    assemble (config .low 0#8) (.setfadetime 5 1000 0) = some [.word 0x50050400#32] ∧
    assemble (config .low 0#8) (.setdutypct 5 100 true) = some [.word 0x2105FF00#32] := by
  decide

/-! ### TICK -/

/-- B4, the clamped, zero-rate and mixed rows. -/
theorem test_fade :
    fade 200#8 50#8 0#8 0#8 = 50#8 ∧ fade 250#8 255#8 10#8 0#8 = 255#8 ∧ fade 3#8 0#8 0#8 7#8 = 0#8 ∧
    fade 100#8 50#8 5#8 0#8 = 50#8 ∧ fade 50#8 100#8 0#8 5#8 = 100#8 ∧ fade 200#8 10#8 255#8 255#8 = 10#8 ∧
    fade 100#8 200#8 7#8 3#8 = 107#8 ∧ fade 200#8 100#8 7#8 3#8 = 197#8 := by
  decide

/-- B3: T1, T3, T4, T5, T7, T11, T13, T17, T18, T19. -/
theorem test_tick_one_slot :
    [running 0x7F#8 [freeSlot] 0xAA#8,
     running 255#8 [pin5 128#8 0#8] 0#8,
     running 255#8 [pin5 0#8 128#8] 0x20#8,
     running 127#8 [pin5 128#8 128#8] 0x20#8,
     running 254#8 [pin5 255#8 255#8] 0x20#8,
     running 255#8 [⟨3#8, .inverted, 0x20, 0x08#8, 64#8, 64#8, 0#8, 0#8⟩] 0x18#8,
     running 10#8 [pin5 200#8 50#8] 0x20#8,
     running 255#8 [pin5 128#8 0#8] 0xC3#8,
     running 255#8 [{ pin5 128#8 0#8 with mask := 0x30#8 }] 0#8,
     running 255#8 [{ pin5 0#8 0#8 with pol := .inverted }] 0#8].map (fun s => look tickView (exec .tick s)) =
    [some (0x80#8, [0#8], 0xAA#8), some (0#8, [128#8], 0x20#8), some (0#8, [0#8], 0x00#8), some (128#8, [128#8], 0x00#8),
     some (255#8, [255#8], 0x00#8), some (0#8, [64#8], 0x10#8), some (11#8, [50#8], 0x20#8), some (0#8, [128#8], 0xE3#8),
     some (0#8, [128#8], 0x30#8), some (0#8, [0#8], 0x20#8)] := by
  decide

/-- B3: T14, T15. -/
theorem test_tick_two_slots :
    look tickView (exec .tick (running 255#8
      [⟨3#8, .normal, 0x20, 0x08#8, 0#8, 10#8, 0#8, 3#8⟩, ⟨4#8, .inverted, 0x20, 0x10#8, 255#8, 250#8, 10#8, 0#8⟩] 0x08#8)) =
      some (0#8, [7#8, 255#8], 0x08#8) ∧
    look tickView (exec .tick (running 255#8
      [⟨0xFF#8, .normal, 0x20, 0x01#8, 9#8, 9#8, 0#8, 0#8⟩, ⟨4#8, .normal, 0x20, 0x10#8, 20#8, 0#8, 0#8, 0#8⟩] 0#8)) =
      some (0#8, [9#8, 20#8], 0x10#8) := by
  decide

/-! ### The host commands -/

/-- B6, `INIT 7` on arbitrary contents, and its 18 micro-operations. -/
theorem test_init :
    look (fun t => (t.defpol, t.ch, t.tmrRun, t.cnt)) (runCommand (.init 7#8)
      { running 9#8 [pin5 1#8 2#8, { pin5 3#8 4#8 with up := 5#8 }] 0x5A#8 with tmrRun := false }) =
      some (.inverted, List.replicate 2 { freeSlot with pol := .inverted }, true, 9#8) ∧
    look (fun t => t.hostq.length) (exec (.init 7#8) { running 9#8 [freeSlot, freeSlot] 0#8 with tmrRun := false }) = some 18 := by
  decide

/-- B7: H1, H2, H3, H6. -/
theorem test_setduty :
    look (fun t => (t.ch, t.outAt 0x20, t.modeAt 5#8, t.cnt))
      (runCommand (.setduty 5#8 128#8 false) (running 100#8 [freeSlot, freeSlot] 0xFF#8)) =
      some ([pin5 128#8 0#8, freeSlot], 0xDF#8, .output, 100#8) ∧
    look (fun t => t.ch) (runCommand (.setduty 5#8 255#8 false) (running 100#8 [pin5 128#8 0#8, freeSlot] 0xDF#8)) =
      some [pin5 255#8 0#8, freeSlot] ∧
    look (fun t => (t.ch, t.outAt 0x20)) (runCommand (.setduty 3#8 64#8 false) (running 100#8 [pin5 255#8 0#8, freeSlot] 0xDF#8)) =
      some ([pin5 255#8 0#8, ⟨3#8, .normal, 0x20, 0x08#8, 64#8, 0#8, 0#8, 0#8⟩], 0xD7#8) ∧
    look (fun t => t.ch.map (·.target)) (runCommand (.setduty 0xFF#8 0#8 false) (running 100#8 [pin5 255#8 0#8, freeSlot] 0#8)) =
      some [0#8, 0#8] := by
  decide

/-- B7: H5 (exhausted, `IMM` ignored), the broadcast with `IMM` and no occupied slot, and the immediate path with both reloads. -/
theorem test_setduty_imm :
    exec (.setduty 7#8 10#8 true) (running 100#8 [pin5 255#8 0#8] 0xD7#8) = .next (running 100#8 [pin5 255#8 0#8] 0xD7#8) ∧
    look (fun t => (t.ch, t.cnt)) (runCommand (.setduty 0xFF#8 9#8 true) (running 100#8 [freeSlot] 0#8)) = some ([freeSlot], 0#8) ∧
    look (fun t => t.hostq) (exec (.setduty 5#8 200#8 true) (running 100#8 [pin5 64#8 64#8] 0#8)) =
      some [.setTarget 0 200#8, .setCnt 0#8, .resetCounter 0] ∧
    look (fun t => t.cnt) (runCommand (.setduty 5#8 200#8 true)
      { running 100#8 [pin5 64#8 64#8] 0#8 with cfg := config .low 0xFF#8 }) = some 255#8 := by
  refine ⟨?_, ?_, ?_, ?_⟩
  · rfl
  · decide
  · decide
  · decide

/-- B8. -/
theorem test_setpol :
    look (fun t => (t.ch.map (·.pol), t.outAt 0x20, t.defpol))
      (runCommand (.setpol 5#8 2#8) (running 50#8 [pin5 128#8 128#8, freeSlot] 0x28#8)) =
      some ([.inverted, .normal], 0x28#8, .normal) ∧
    look (fun t => t.hostq) (exec (.setpol 9#8 1#8) (running 50#8 [pin5 128#8 128#8] 0x28#8)) = some [] := by
  decide

/-- B9, `IDLE_LEVEL` = 1: `DETACH 5`, then `DETACH ALL`. -/
theorem test_detach :
    let s : State := { running 0#8 [pin5 128#8 128#8, ⟨3#8, .inverted, 0x20, 0x08#8, 64#8, 64#8, 2#8, 2#8⟩] 0#8 with
      mode := [(3, .output), (5, .output)], cfg := config .high 0#8 }
    look (fun t => (t.outAt 0x20, t.modeAt 5#8, t.modeAt 3#8, t.ch.map (·.pin))) (runCommand (.detach 5#8) s) =
      some (0x20#8, .input, .output, [0xFF#8, 3#8]) ∧
    look (fun t => (t.outAt 0x20, t.mode, t.ch)) (runCommand (.detach 0xFF#8) s) =
      some (0x28#8, [], [{ pin5 128#8 128#8 with pin := 0xFF#8 }, ⟨0xFF#8, .inverted, 0x20, 0x08#8, 64#8, 64#8, 2#8, 2#8⟩]) := by
  decide

/-- I1 of part D: a tick between M1 and M2 of `DETACH 5` still drives the pin, and leaves `HOSTQ` as it is (R139, R156). -/
theorem test_tick_inside_detach :
    look (fun t => (t.outAt 0x20, t.hostq)) (step { running 255#8 [pin5 128#8 128#8] 0#8 with
      hostq := [.setPinMode 5#8 .input, .setPin 0 0xFF#8], schedule := [.strobe] }) =
      some (0x20#8, [.setPinMode 5#8 .input, .setPin 0 0xFF#8]) := by
  decide

/-- B10. -/
theorem test_setrate :
    look (fun t => t.ch.map fun c => (c.up, c.down)) (runCommand (.setrate 0xFF#8 10#8 20#8) (running 0#8 [pin5 1#8 1#8, freeSlot] 0#8)) =
      some [(10#8, 20#8), (0#8, 0#8)] ∧
    look (fun t => t.hostq) (exec (.setrate 9#8 1#8 1#8) (running 0#8 [pin5 1#8 1#8] 0#8)) = some [] := by
  decide

/-- R56: in port 0x20 the bit of the occupied slot (pin 5) and the bit of the pin being attached (pin 7) keep their value. -/
theorem test_foreign_write :
    ({ running 0#8 [pin5 1#8 1#8] 0x21#8 with hostq := [.setPin 1 7#8] }.foreignWrite 0x20 0x9E#8).outAt 0x20 = 0x3E#8 := by
  decide

/-- 93_implementation_defined.md U1 to U4: where the machine stops. -/
theorem test_stops :
    exec (.setpol 5#8 1#8) State.reset = .refused .beforeInit ∧
    exec (.init 0#8) (running 0#8 [freeSlot] 0#8) = .refused .secondInit ∧
    exec (.setduty 6#8 1#8 false) (running 0#8 [freeSlot] 0#8) = .refused .unresolvablePin ∧
    exec .tick (running 0#8 [{ pin5 1#8 1#8 with oreg := 0x99 }] 0#8) = .fault .badPortAddress ∧
    exec (.detach 5#8) (running 0#8 [{ pin5 1#8 1#8 with oreg := 0x99 }] 0#8) = .fault .badPortAddress := by
  refine ⟨?_, ?_, ?_, ?_, ?_⟩ <;> rfl

/-- Each row of the opcode table, placed after reset, is what the next step runs: the command's first micro-operation is queued, or the
tick has advanced the counter. -/
theorem test_withFetchWord :
    look (fun t => t.hostq.head?) (step (State.reset.withFetchWord 32 0x10000100)) = some (some (.setDefpol .inverted)) ∧
    look (fun t => t.hostq.head?) (step (State.reset.withFetchWord 32 0x20058000)) = some (some (.setOreg 0 0x20)) ∧
    look (fun t => t.hostq) (step (State.reset.withFetchWord 32 0x30050100)) = some [] ∧
    look (fun t => t.hostq) (step (State.reset.withFetchWord 32 0x40050000)) = some [] ∧
    look (fun t => t.hostq) (step (State.reset.withFetchWord 32 0x50056400)) = some [] ∧
    look (fun t => t.cnt) (step (State.reset.withFetchWord 8 1)) = some 1#8 := by
  decide

/-! ### Witnesses: a concrete state and operands that meet all hypotheses of a statement together, each clause at a boundary -/

/-- Pin 5 rising (Normal), pin 3 falling (Inverted), one free slot, the next tick a cycle start, both pins outputs. -/
def busy : State :=
  { running 255#8 [{ pin5 128#8 0#8 with up := 100#8 }, ⟨3#8, .inverted, 0x20, 0x08#8, 0#8, 10#8, 0#8, 3#8⟩, freeSlot] 0x00#8 with
    mode := [(3, .output), (5, .output)] }

/-- The same block with every slot owned. -/
def full : State := running 100#8 [pin5 128#8 64#8, ⟨3#8, .inverted, 0x20, 0x08#8, 0#8, 10#8, 0#8, 3#8⟩] 0x00#8

/-- Before INIT: the timer stopped and arbitrary contents. -/
def beforeInit : State := { running 7#8 [pin5 1#8 2#8, freeSlot] 0x5A#8 with tmrRun := false }

/-- Ownership on a bounded table. -/
theorem unique_of_fin {l : List Slot}
    (h : ∀ i j : Fin l.length, (l.get i).occupied = true → (l.get j).occupied = true → (l.get i).pin = (l.get j).pin → i = j) :
    ∀ (i j : Nat) (c d : Slot), l[i]? = some c → l[j]? = some d → c.occupied = true → d.occupied = true → c.pin = d.pin → i = j := by
  intro i j c d hc hd ho ho' e
  obtain ⟨hi, rfl⟩ := List.getElem?_eq_some_iff.1 hc
  obtain ⟨hj, rfl⟩ := List.getElem?_eq_some_iff.1 hd
  exact congrArg Fin.val (h ⟨i, hi⟩ ⟨j, hj⟩ ho ho' e)

/-- `State.alone` on a bounded table. -/
theorem alone_of_fin {s : State} {i : Nat} {c : Slot}
    (h : ∀ j : Fin s.ch.length, j.val ≠ i → (s.ch.get j).occupied = true → (s.ch.get j).oreg = c.oreg →
      (s.ch.get j).mask &&& c.mask = 0#8) : s.alone i c := by
  intro j d hd hj ho he
  obtain ⟨hl, rfl⟩ := List.getElem?_eq_some_iff.1 hd
  exact h ⟨j, hl⟩ hj ho he

theorem witness_tableOk : busy.TableOk where
  pins := by decide
  unique := unique_of_fin (by decide)
  resolved := by decide

/-- Between commands the look-ahead of the invariant is the table itself. -/
theorem inv_of_idle {s : State} (hq : s.hostq = []) (h1 : s.cfg.wf = true) (h2 : 0 < s.nCh) (h3 : Memory.wf s.out = true)
    (h4 : ∀ e ∈ s.out, s.cfg.isPort e.1 = true) (h5 : PinModes.wf s.mode = true)
    (h6 : ∀ e ∈ s.mode, e.1 < 128 ∧ s.cfg.validPin (BitVec.ofNat 8 e.1) = true) (h7 : s.TableOk)
    (h8 : ∀ c ∈ s.ch, c.occupied = true → s.modeAt c.pin = .output) : s.Inv where
  platform := h1
  slots := h2
  outWf := h3
  outPorts := h4
  modeWf := h5
  modePins := h6
  queued := by simp [hq]
  ahead := by simpa [hq, State.afterOps] using fun _ => h7
  directions := by simpa [hq, State.afterOps] using fun _ => h8

/-- A state with two owned pins that meets the invariant: the hypotheses of InvariantIsKeptByEveryStep, InvariantStatesNeverFault,
OwnershipHoldsAlongEveryRun (with no step taken) and DisjointPinsGiveEverySlotItsOwnBits. -/
theorem witness_inv : busy.Inv ∧ busy.tmrRun = true ∧ busy.cfg.disjoint = true ∧
    busy.ch[0]? = some { pin5 128#8 0#8 with up := 100#8 } ∧ (pin5 128#8 0#8).occupied = true ∧
    Host.Core.run Sys2Proof.core 0 busy = .next busy :=
  ⟨inv_of_idle rfl (by decide) (by decide) (by decide) (by decide) (by decide) (by decide) witness_tableOk (by decide),
    rfl, by decide, rfl, rfl, rfl⟩

/-- The state `busy` with a tick next. -/
def busyTick : State := busy.setSchedule [.strobe]

/-- A step from a state that meets the invariant, which is a `TICK` that changes a `current`: the hypotheses of CurrentChangesOnlyAtCycleStart,
InvariantIsKeptByEveryStep, CanonicalFormIsKept, CapacityParametersAndTimerAreKept and, for the tick's clauses,
EachStateHasItsWritersOnly. -/
theorem witness_step_tick : busyTick.Inv ∧ busyTick.tmrRun = true ∧ Memory.wf busyTick.out = true ∧
    PinModes.wf busyTick.mode = true ∧ ∃ t, step busyTick = .next t ∧ t.cnt ≠ busyTick.cnt ∧ t.out ≠ busyTick.out ∧
      ∃ c d, busyTick.ch[0]? = some c ∧ t.ch[0]? = some d ∧ d.current ≠ c.current := by
  refine ⟨inv_of_idle rfl (by decide) (by decide) (by decide) (by decide) (by decide) (by decide)
    ⟨by decide, unique_of_fin (by decide), by decide⟩ (by decide), rfl, by decide, by decide, ?_⟩
  exact ⟨_, rfl, by decide, by decide, _, _, rfl, rfl, by decide⟩

/-- EachStateHasItsWritersOnly, the clauses of the host's micro-operations: one step that writes each piece of state. -/
theorem witness_step_host :
    [look (fun t => decide (t.cnt ≠ busy.cnt)) (step { busy with hostq := [.setCnt 0#8] }),
     look (fun t => decide (t.defpol ≠ busy.defpol)) (step { busy with hostq := [.setDefpol .inverted] }),
     look (fun t => decide (t.tmrRun ≠ beforeInit.tmrRun)) (step { beforeInit with hostq := [.configureTick 0] }),
     look (fun t => decide (t.mode ≠ busy.mode)) (step { busy with hostq := [.setPinMode 5#8 .input] }),
     look (fun t => decide (t.out ≠ busy.out)) (step { busy with hostq := [.writePinLevel 5#8 .high] }),
     look (fun t => decide (t.out ≠ busy.out)) (step { busy with schedule := [.foreign 0x20 0x01#8] }),
     look (fun t => decide (t.ch.map (·.pin) ≠ busy.ch.map (·.pin))) (step { busy with hostq := [.setPin 0 0xFF#8] }),
     look (fun t => decide (t.ch.map (·.pol) ≠ busy.ch.map (·.pol))) (step { busy with hostq := [.setPol 0 .inverted] }),
     look (fun t => decide (t.ch.map (·.oreg) ≠ busy.ch.map (·.oreg))) (step { busy with hostq := [.setOreg 2 0x21] }),
     look (fun t => decide (t.ch.map (·.mask) ≠ busy.ch.map (·.mask))) (step { busy with hostq := [.setMask 2 2#8] }),
     look (fun t => decide (t.ch.map (·.target) ≠ busy.ch.map (·.target))) (step { busy with hostq := [.setTarget 0 9#8] }),
     look (fun t => decide (t.ch.map (·.current) ≠ busy.ch.map (·.current))) (step { busy with hostq := [.setCurrent 0 9#8] }),
     look (fun t => decide (t.ch.map (·.up) ≠ busy.ch.map (·.up))) (step { busy with hostq := [.setUp 0 9#8] }),
     look (fun t => decide (t.ch.map (·.down) ≠ busy.ch.map (·.down))) (step { busy with hostq := [.setDown 0 9#8] })] =
    List.replicate 14 (some true) := by
  decide

/-! Encoding -/

/-- OpcodeMapSelectsByMatchAndMask: a word for each clause, all other fields at their largest, and two that select no row. -/
theorem witness_opcodeMap :
    [0x11FFFFFF#32, 0x21FFFFFF#32, 0x31FFFFFF#32, 0x41FFFFFF#32, 0x51FFFFFF#32].map (fun w => w &&& 0xFE000000#32) =
      [0x10000000#32, 0x20000000#32, 0x30000000#32, 0x40000000#32, 0x50000000#32] ∧
    ([0x00000000#32, 0x5E000000#32].all fun w => [0x10000000#32, 0x20000000#32, 0x30000000#32, 0x40000000#32, 0x50000000#32].all
      fun m => w &&& 0xFE000000#32 != m) = true := by
  decide

/-- ReservedWordChangesNothing: `op` 0x0, 0x6 and 0xF, `rsvd` 1 and 7, with the word at the command port before INIT. -/
theorem witness_reservedWord :
    ([0x00000000#32, 0x60000000#32, 0xF0000000#32, 0x22058000#32, 0x2F058000#32].all fun w =>
      (w >>> 28 == 0#32 || decide (6 ≤ (w >>> 28).toNat) || (w >>> 25) &&& 7#32 != 0#32)) = true ∧
    ∀ w : Word, ({ beforeInit with program := [w] } : State).takeTurn = (.host, { beforeInit with program := [w] }) ∧
      beforeInit.hostq = [] :=
  ⟨by decide, fun _ => ⟨rfl, rfl⟩⟩

/-- FadeTimeBecomesRate: every clause at its boundary, with FADE_TERM 16 (255 * 16 = 4080). -/
theorem witness_fadeTime :
    pinInRange (-128) = true ∧ pinInRange 127 = true ∧
    (0 < 16 ∧ 255 * (config .low 0#8).fadeTerm / 16 ≤ 255) ∧ (0 < 15 ∧ 255 < 255 * (config .low 0#8).fadeTerm / 15) ∧
    255 * (config .low 0#8).fadeTerm < 4081 := by
  decide

/-- PercentIsTruncatedIntoDuty: 0 and 100 on one side, 101 on the other. -/
theorem witness_percent : 0 ≤ 100 ∧ 100 ≤ 100 ∧ 100 < 101 := by decide

/-! TICK -/

/-- TickCompletesWithCounterAndFade, both of its counter clauses; CurrentIsHeldWithinACycle with `n` = 0 and 1. -/
theorem witness_tick_completes :
    busy.tmrRun = true ∧ (∀ c ∈ busy.ch, c.occupied = true → busy.cfg.isPort c.oreg = true) ∧ busy.cnt = 255#8 ∧
    full.tmrRun = true ∧ (∀ c ∈ full.ch, c.occupied = true → full.cfg.isPort c.oreg = true) ∧ full.cnt ≠ 255#8 ∧
    busy.cnt.toNat + 0 < 256 ∧ ¬ busy.cnt.toNat + 1 < 256 := by
  decide

/-- TickDrivesAnOccupiedSlot: its three clauses. At `busy` the slot on pin 5 has a new `current` of 100 at `CNT` = 0; a slot with `current` 0
and target 0 meets `CNT` = 0; at `full` neither. The same hypotheses, with `CNT` = 255, are PulseIsOnForExactlyTheDuty's. -/
theorem witness_tick_drives :
    (busy.tmrRun = true ∧ (∀ d ∈ busy.ch, d.occupied = true → busy.cfg.isPort d.oreg = true) ∧ Memory.wf busy.out = true ∧
      busy.cnt = 255#8 ∧ busy.ch[0]? = some { pin5 128#8 0#8 with up := 100#8 } ∧ (pin5 128#8 0#8).occupied = true ∧
      busy.alone 0 { pin5 128#8 0#8 with up := 100#8 } ∧ fade 0#8 128#8 100#8 0#8 ≠ 0#8) ∧
    ((running 255#8 [pin5 0#8 0#8] 0x20#8).alone 0 (pin5 0#8 0#8) ∧ fade 0#8 0#8 0#8 0#8 = 255#8 + 1#8) ∧
    (full.alone 0 (pin5 128#8 64#8) ∧ full.cnt + 1#8 ≠ 0#8 ∧ full.cnt + 1#8 ≠ 64#8) := by
  refine ⟨⟨rfl, by decide, by decide, rfl, rfl, rfl, alone_of_fin (by decide), by decide⟩, ⟨alone_of_fin (by decide), by decide⟩,
    ⟨alone_of_fin (by decide), by decide, by decide⟩⟩

/-- TickKeepsBitsOutsideMasks: bit 0 of port 0x20 is under no mask. -/
theorem witness_tick_keeps :
    Memory.wf busy.out = true ∧ (∃ t, exec .tick busy = .next t) ∧
    ∀ c ∈ busy.ch, c.occupied = true → c.oreg = 0x20 → c.mask.getLsbD 0 = false :=
  ⟨by decide, ⟨_, rfl⟩, by decide⟩

/-- TickWithoutAnEdgeIsNotObserved: `full` at `CNT` = 100, whose slots have `current` 64 and 10. -/
theorem witness_no_edge : (∃ t, exec .tick full = .next t) ∧ full.cnt ≠ 255#8 ∧
    ∀ c ∈ full.ch, c.occupied = true → c.current ≠ full.cnt + 1#8 :=
  ⟨⟨_, rfl⟩, by decide, by decide⟩

theorem witness_tick_not_enabled : beforeInit.tmrRun = false := rfl

/-- LevelHoldsUntilTheComparatorMatches: `CNT` = 100, `current` = 64 already passed, and `n` at its largest; and a slot whose `current` 101 is
met by the first tick. -/
theorem witness_level_holds :
    full.tmrRun = true ∧ (∀ d ∈ full.ch, d.occupied = true → full.cfg.isPort d.oreg = true) ∧ Memory.wf full.out = true ∧
    full.ch[0]? = some (pin5 128#8 64#8) ∧ (pin5 128#8 64#8).occupied = true ∧ full.alone 0 (pin5 128#8 64#8) ∧
    full.cnt.toNat + 155 < 256 ∧ ¬ full.cnt.toNat < (64#8).toNat ∧
    (running 100#8 [pin5 1#8 101#8] 0#8).alone 0 (pin5 1#8 101#8) ∧ (100#8).toNat < (101#8).toNat ∧
    (101#8).toNat ≤ (100#8).toNat + 1 :=
  ⟨rfl, by decide, by decide, rfl, rfl, alone_of_fin (by decide), by decide, by decide, alone_of_fin (by decide), by decide, by decide⟩

/-- An occupied slot in the rising case of R92, and one in the falling case. -/
def rises (c : Slot) : Bool := c.occupied && decide (c.current.toNat < c.target.toNat ∧ 0 < c.up.toNat)
def falls (c : Slot) : Bool := c.occupied && decide (c.target.toNat < c.current.toNat ∧ 0 < c.down.toNat)

/-- FadeConvergesInClosedForm: a rising slot, a falling slot and (in `full`) a slot in neither case, with one cycle start (`k` = 1) for
`n` = 1. -/
theorem witness_converges :
    busy.tmrRun = true ∧ (∀ d ∈ busy.ch, d.occupied = true → busy.cfg.isPort d.oreg = true) ∧ busy.cnt.toNat + 1 = 256 ∧
    busy.ch.map rises = [true, false, false] ∧ busy.ch.map falls = [false, true, false] ∧
    full.ch.map (fun c => c.occupied && !rises c && !falls c) = [true, false] := by
  decide

/-- TickInsideSetrateIsBeforeOrAfter: the writes of `SETRATE 5` and of the broadcast, two and four micro-operations, and prefixes that end
inside a slot's pair. -/
theorem witness_tick_inside_setrate :
    busy.tmrRun = true ∧ busy.hostq = [] ∧ (∀ c ∈ busy.ch, c.occupied = true → busy.cfg.isPort c.oreg = true) ∧
    exec (.setrate 5#8 9#8 0#8) busy = .next (busy.setHostq [.setUp 0 9#8, .setDown 0 0#8]) ∧
    exec (.setrate 0xFF#8 9#8 0#8) busy =
      .next (busy.setHostq [.setUp 0 9#8, .setDown 0 0#8, .setUp 1 9#8, .setDown 1 0#8]) :=
  ⟨rfl, rfl, by decide, rfl, rfl⟩

/-- I4 of part D: `SETRATE 5, 9, 0` on a falling channel; the tick between its writes reads the old `down`, the tick after both jumps. -/
theorem test_tick_inside_setrate :
    let s := running 255#8 [{ pin5 50#8 100#8 with down := 7#8 }] 0#8
    look tickView (exec .tick (s.afterOps [.setUp 0 9#8])) = some (0#8, [93#8], 0x20#8) ∧
    look tickView (exec .tick (s.afterOps [.setUp 0 9#8, .setDown 0 0#8])) = some (0#8, [50#8], 0x20#8) := by
  decide

/-! Host commands -/

/-- MatchIsOccupiedAndOwnedAscending: pin 0 and pin 127 are the bounds of the non-negative pins; pin 9 is not attached. -/
theorem witness_match : busy.TableOk ∧ 0 ≤ (0#8).toInt ∧ 0 ≤ (127#8).toInt ∧ ¬ 0 ≤ (128#8).toInt ∧ busy.tmrRun = true ∧
    busy.matchPin 9#8 = [] :=
  ⟨witness_tableOk, by decide, by decide, by decide, rfl, by decide⟩

/-- InitResetsTheTable; both polarity codes at their boundary. -/
theorem witness_init : beforeInit.tmrRun = false ∧ beforeInit.hostq = [] ∧ coerce 0#8 = .normal ∧ coerce 255#8 = .inverted :=
  ⟨rfl, rfl, by decide, by decide⟩

/-- SetdutyUpdatesTargetOfTheOwner. -/
theorem witness_setduty_update :
    busy.tmrRun = true ∧ busy.hostq = [] ∧ 0 ≤ (3#8).toInt ∧ busy.matchPin 3#8 = [1] :=
  ⟨rfl, rfl, by decide, by decide⟩

/-- SetdutyAttachesTheFirstFreeSlot: pin 7 takes slot 2, the first free one. -/
theorem witness_setduty_attach :
    busy.tmrRun = true ∧ busy.hostq = [] ∧ 0 ≤ (7#8).toInt ∧ (∀ d ∈ busy.ch, d.pin ≠ 7#8) ∧
    busy.ch[2]? = some freeSlot ∧ freeSlot.pin.toInt < 0 ∧ (∀ g d, g < 2 → busy.ch[g]? = some d → 0 ≤ d.pin.toInt) ∧
    busy.cfg.resolve 7#8 = some (0x20, 0x80#8) := by
  refine ⟨rfl, rfl, by decide, by decide, rfl, by decide, ?_, by decide⟩
  intro g d hg hd
  have : g = 0 ∨ g = 1 := by omega
  rcases this with rfl | rfl <;> cases hd <;> decide

/-- AttachedPinStaysOffUntilTheCycleStarts: the counter at 100 in a table with a free slot, `n` at its largest, 155. -/
theorem witness_attached_off :
    let s : State := { busy with cnt := 100#8 }
    s.tmrRun = true ∧ s.hostq = [] ∧ Memory.wf s.out = true ∧ PinModes.wf s.mode = true ∧
    (∀ d ∈ s.ch, d.occupied = true → s.cfg.isPort d.oreg = true ∧ (d.oreg = 0x20 → d.mask &&& 0x80#8 = 0#8)) ∧
    0 ≤ (7#8).toInt ∧ (∀ d ∈ s.ch, d.pin ≠ 7#8) ∧ s.ch[2]? = some freeSlot ∧ freeSlot.pin.toInt < 0 ∧
    (∀ g d, g < 2 → s.ch[g]? = some d → 0 ≤ d.pin.toInt) ∧ s.cfg.resolve 7#8 = some (0x20, 0x80#8) ∧
    s.cnt.toNat + 155 < 256 := by
  refine ⟨rfl, rfl, by decide, by decide, by decide, by decide, by decide, rfl, by decide, ?_, by decide, by decide⟩
  intro g d hg hd
  have : g = 0 ∨ g = 1 := by omega
  rcases this with rfl | rfl <;> cases hd <;> decide

/-- SetdutyWithoutFreeSlotHasNoEffect. -/
theorem witness_setduty_exhausted :
    full.tmrRun = true ∧ 0 ≤ (7#8).toInt ∧ (∀ d ∈ full.ch, d.pin ≠ 7#8) ∧ ∀ d ∈ full.ch, 0 ≤ d.pin.toInt := by
  decide

/-- SetdutyBroadcastWritesOccupiedSlots: -1 and -128. -/
theorem witness_setduty_broadcast : busy.tmrRun = true ∧ busy.hostq = [] ∧ (0xFF#8).toInt < 0 ∧ (0x80#8).toInt < 0 :=
  ⟨rfl, rfl, by decide, by decide⟩

/-- AttachPublishesThePinLast: the longest proper prefix is 6 of 7. -/
theorem witness_attach_last : busy.ch[2]? = some freeSlot ∧ freeSlot.free = true ∧ 6 < 7 := ⟨rfl, rfl, by decide⟩

/-- SetpolWritesPolarityOnly and SetrateWritesBothRatesOnly. -/
theorem witness_setpol_setrate : busy.tmrRun = true ∧ busy.hostq = [] := ⟨rfl, rfl⟩

/-- DetachReleasesPinAndFreesSlot, for one pin and for all. -/
theorem witness_detach :
    busy.tmrRun = true ∧ busy.hostq = [] ∧ Memory.wf busy.out = true ∧ PinModes.wf busy.mode = true ∧
    (∀ c ∈ busy.ch, c.matchesPin 5#8 = true → busy.cfg.isPort c.oreg = true ∧ busy.cfg.validPin c.pin = true) ∧
    (∀ c ∈ busy.ch, c.matchesPin 0xFF#8 = true → busy.cfg.isPort c.oreg = true ∧ busy.cfg.validPin c.pin = true) :=
  ⟨rfl, rfl, by decide, by decide, by decide, by decide⟩

/-- StartingACommandChangesHostqOnly, for each of the five commands. -/
theorem witness_starting :
    (∃ t, exec (.init 0#8) beforeInit = .next t) ∧ (∃ t, exec (.setduty 5#8 1#8 true) busy = .next t) ∧
    (∃ t, exec (.setpol 5#8 1#8) busy = .next t) ∧ (∃ t, exec (.detach 5#8) busy = .next t) ∧
    (∃ t, exec (.setrate 5#8 1#8 1#8) busy = .next t) :=
  ⟨⟨_, rfl⟩, ⟨_, rfl⟩, ⟨_, rfl⟩, ⟨_, rfl⟩, ⟨_, rfl⟩⟩

/-- RefusalsAreTheThreeUseErrors and FaultsAreMalformedSlotsOnly: each clause of the right side. -/
theorem witness_stops :
    (beforeInit.tmrRun = false ∧ (Instr.detach 5#8) ≠ .tick ∧ ∀ a, (Instr.detach 5#8) ≠ .init a) ∧
    (busy.tmrRun = true ∧ ∃ a, (Instr.init 0#8) = .init a) ∧
    (0 ≤ (6#8).toInt ∧ (∀ c ∈ busy.ch, c.pin ≠ 6#8) ∧ (∃ c ∈ busy.ch, c.pin.toInt < 0) ∧ busy.cfg.resolve 6#8 = none) ∧
    (let s := running 0#8 [{ pin5 1#8 1#8 with oreg := 0x99 }] 0#8
     s.tmrRun = true ∧ (∃ c ∈ s.ch, c.occupied = true ∧ s.cfg.isPort c.oreg = false) ∧
       ∃ c ∈ s.ch, c.matchesPin 5#8 = true ∧ (s.cfg.isPort c.oreg = false ∨ s.cfg.validPin c.pin = false)) ∧
    (let s := running 0#8 [{ pin5 1#8 1#8 with pin := 6#8 }] 0#8
     ∃ c ∈ s.ch, c.matchesPin 0xFF#8 = true ∧ (s.cfg.isPort c.oreg = false ∨ s.cfg.validPin c.pin = false)) := by
  refine ⟨⟨rfl, by decide, fun _ => by simp⟩, ⟨rfl, _, rfl⟩, by decide, by decide, by decide⟩

/-! Port primitives, the step, the other agents -/

/-- DrivesChangeTheMaskedBitsOnly. -/
theorem witness_drives : Memory.wf busy.out = true ∧ busy.ch[1]? = some ⟨3#8, .inverted, 0x20, 0x08#8, 0#8, 10#8, 0#8, 3#8⟩ :=
  ⟨by decide, rfl⟩

/-- PinBackendPrimitivesTouchOnePin. -/
theorem witness_pinBackend : Memory.wf busy.out = true ∧ PinModes.wf busy.mode = true ∧
    busy.cfg.resolve 9#8 = some (0x21, 0x02#8) := by
  decide

/-- StepRunsTheDecodedInstruction: each turn, with a schedule and without. -/
theorem witness_turns :
    (busy.schedule = [] ∧ busyTick.schedule = [Turn.strobe] ∧ busyTick.takeTurn = (.strobe, busy)) ∧
    (let s : State := { busy with program := [0x30050100#32] }
     s.takeTurn = (.host, s) ∧ s.hostq = [] ∧ s.program = 0x30050100#32 :: [] ∧
       decode (.word 0x30050100#32) = .ok (.setpol 5#8 1#8)) ∧
    (let s : State := { busy with hostq := [.setUp 0 1#8] }
     s.takeTurn = (.host, s) ∧ s.hostq = .setUp 0 1#8 :: []) ∧
    (busy.takeTurn = (.host, busy) ∧ busy.hostq = [] ∧ busy.program = []) ∧
    ({ busy with schedule := [.foreign 0x20 1#8] } : State).takeTurn = (.foreign 0x20 1#8, busy) :=
  ⟨⟨rfl, rfl, rfl⟩, ⟨rfl, rfl, rfl, by decide⟩, ⟨rfl, rfl⟩, ⟨rfl, rfl, rfl⟩, rfl⟩

/-- HostStepsRunTheQueueInOrder, with two micro-operations queued: two host turns and then a tick, one host turn, none. -/
theorem witness_queue :
    [[Turn.host, .host, .strobe], [.host], []].all (fun ts =>
      let s : State := { busy with hostq := [.setUp 0 1#8, .setDown 0 2#8], schedule := ts }
      (s.schedule.take s.hostq.length).all fun t => t == .host) = true := by
  decide

/-- ForeignWritesSpareOwnedBits: bit 0 of port 0x20 is free; bit 5 is owned by a slot; with pin 7 being attached bit 7 is owned too; 0x99 is
no port. -/
theorem witness_foreign :
    Memory.wf busy.out = true ∧ busy.cfg.isPort 0x20 = true ∧ busy.cfg.isPort 0x99 = false ∧
    (∀ c ∈ busy.ch, c.occupied = true → c.oreg = 0x20 → c.mask.getLsbD 0 = false) ∧
    (∃ c ∈ busy.ch, c.occupied = true ∧ c.oreg = 0x20 ∧ c.mask.getLsbD 5 = true) ∧
    (MicroOp.setPinMode 7#8 .output).pin? = some 7#8 ∧ busy.cfg.resolve 7#8 = some (0x20, 0x80#8) ∧ (0x80#8).getLsbD 7 = true := by
  decide

/-- TickDoesNotChangeWhatACommandQueues and HostFieldsAreIndependentOfTicks. -/
theorem witness_tick_between :
    (∃ t, exec .tick busy = .next t) ∧
    exec (.setrate 5#8 9#8 0#8) busy = .next (busy.setHostq (busy.hostq ++ [.setUp 0 9#8, .setDown 0 0#8])) ∧
    ∃ u, runOps [.setUp 0 9#8, .setDown 0 0#8] busy = .next u :=
  ⟨⟨_, rfl⟩, rfl, ⟨_, rfl⟩⟩

end Sys2Proof.Tests
end

