-- ==== Sys2Proof/Proofs/TickObservable.lean ====
section
/-!
PROOF. A `TICK` with no cycle start and no comparator match is not observed (00_scope.md R8, 40_tick.md R82, R86).
-/

namespace Sys2Proof.Machine

/-- A slot whose `current` is not the counter, or that is free, has no falling edge (R86). -/
theorem fallOut_of_no_match {n : Byte} {c : Slot} (o : Memory) (h : c.occupied = true → c.current ≠ n) :
    fallOut n o c = o := by
  have hoff : ¬ (c.occupied && c.current == n) = true := by simpa using h
  exact if_neg hoff

/-- The comparator part writes nothing when no occupied slot matches (R86). -/
theorem foldl_fallOut_of_no_match {n : Byte} {l : List Slot} (o : Memory)
    (h : ∀ c ∈ l, c.occupied = true → c.current ≠ n) : l.foldl (fallOut n) o = o := by
  induction l with
  | nil => rfl
  | cons c l ih =>
    obtain ⟨hc, hl⟩ := List.forall_mem_cons.1 h
    rw [List.foldl_cons, fallOut_of_no_match o hc, ih hl]

/-- The tick routine with neither condition met only advances the counter (R81). -/
theorem tickRoutine_of_no_edge {s : State} (hcnt : s.cnt ≠ 255#8)
    (h : ∀ c ∈ s.ch, c.occupied = true → c.current ≠ s.cnt + 1#8) : tickRoutine s = s.setCnt (s.cnt + 1#8) := by
  have hwrap : s.cnt + 1#8 ≠ 0#8 := mt (succ_eq_zero_iff s.cnt).1 hcnt
  rw [tickRoutine_eq, if_neg hwrap, foldl_fallOut_of_no_match s.out h]
  rfl

@[simp] theorem State.setCnt_observable (s : State) (v : Byte) : (s.setCnt v).observable = s.observable := rfl

/-- Settles O12: `TICK` either leaves the state (timer not running) or runs a routine that only advances the counter. -/
theorem tickWithoutAnEdgeIsNotObserved : Obligations.TickWithoutAnEdgeIsNotObserved := by
  intro s t hexec hcnt hno
  rw [exec_tick] at hexec
  obtain ⟨-, hs⟩ | ⟨-, -, hs⟩ | ⟨-, -, hs⟩ := execTick_cases s <;> rw [hs] at hexec
  case inl =>
    cases hexec
    rfl
  case inr.inl =>
    cases hexec
    rw [tickRoutine_of_no_edge hcnt hno, State.setCnt_observable]
  case inr.inr => cases hexec

end Sys2Proof.Machine
end

