-- ==== Sys2Proof/Proofs/HostView.lean ====
section
/-!
PROOF. The host's side of the state: what `TICK` and a foreign write leave alone, and what a command reads when it starts (10_state.md R28,
20_memory.md R51).
-/

namespace Sys2Proof.Machine

variable (s : State)

/-! ### The part of the state that no tick writes -/

/-- A slot but for `current`, the one field a tick writes (R18). -/
def Slot.hostView (c : Slot) : Slot := { c with current := 0#8 }

@[simp] theorem Slot.hostView_hostView (c : Slot) : c.hostView.hostView = c.hostView := rfl

/-- The state but for what a tick or a foreign write changes (`CNT`, `current`, `OUT`) and for the inputs still to come. -/
def State.hostView : State :=
  { s with cnt := 0#8, ch := s.ch.map Slot.hostView, out := [], program := [], schedule := [] }

theorem State.hostView_eq_iff {s t : State} :
    t.hostView = s.hostView ↔ t.ch.map Slot.hostView = s.ch.map Slot.hostView ∧ t.defpol = s.defpol ∧ t.mode = s.mode ∧
      t.tmrRun = s.tmrRun ∧ t.hostq = s.hostq ∧ t.cfg = s.cfg := by
  simp only [State.hostView, State.mk.injEq, true_and]
  tauto

@[simp] theorem State.hostView_defpol : s.hostView.defpol = s.defpol := rfl
@[simp] theorem State.hostView_tmrRun : s.hostView.tmrRun = s.tmrRun := rfl
@[simp] theorem State.hostView_cfg : s.hostView.cfg = s.cfg := rfl
@[simp] theorem State.hostView_ch : s.hostView.ch = s.ch.map Slot.hostView := rfl
@[simp] theorem State.hostView_nCh : s.hostView.nCh = s.nCh := by simp [State.nCh]

@[simp] theorem State.setProgram_hostView (p : List Word) : (s.setProgram p).hostView = s.hostView := rfl
@[simp] theorem State.setSchedule_hostView (t : List Turn) : (s.setSchedule t).hostView = s.hostView := rfl

@[simp] theorem State.foreignWrite_hostView (a : PortAddr) (v : Byte) : (s.foreignWrite a v).hostView = s.hostView := by
  simp [State.hostView_eq_iff]

/-! ### The tick routine, field by field -/

@[simp] theorem tickRoutine_cnt : (tickRoutine s).cnt = s.cnt + 1#8 := by rw [tickRoutine_eq]; split <;> rfl
@[simp] theorem tickRoutine_defpol : (tickRoutine s).defpol = s.defpol := by rw [tickRoutine_eq]; split <;> rfl
@[simp] theorem tickRoutine_mode : (tickRoutine s).mode = s.mode := by rw [tickRoutine_eq]; split <;> rfl
@[simp] theorem tickRoutine_tmrRun : (tickRoutine s).tmrRun = s.tmrRun := by rw [tickRoutine_eq]; split <;> rfl
@[simp] theorem tickRoutine_hostq : (tickRoutine s).hostq = s.hostq := by rw [tickRoutine_eq]; split <;> rfl
@[simp] theorem tickRoutine_cfg : (tickRoutine s).cfg = s.cfg := by rw [tickRoutine_eq]; split <;> rfl

/-- The table after a tick: faded at a cycle start, and as before otherwise (R82, R84). -/
theorem tickRoutine_ch : (tickRoutine s).ch = if s.cnt = 255#8 then s.ch.map fadedIf else s.ch := by
  rw [tickRoutine_eq]
  simp only [succ_eq_zero_iff]
  split <;> rfl

@[simp] theorem tickRoutine_nCh : (tickRoutine s).nCh = s.nCh := by
  simp only [State.nCh, tickRoutine_ch]
  split <;> simp

@[simp] theorem fadedIf_hostView (c : Slot) : (fadedIf c).hostView = c.hostView := by
  unfold fadedIf; split <;> rfl

@[simp] theorem tickRoutine_hostView : (tickRoutine s).hostView = s.hostView := by
  have hch : (tickRoutine s).ch.map Slot.hostView = s.ch.map Slot.hostView := by
    rw [tickRoutine_ch]
    split <;> simp
  simp [State.hostView_eq_iff, hch]

/-- `TICK` changes nothing of the host's view, whether the timer runs or not. -/
theorem exec_tick_hostView {s t : State} (h : exec .tick s = .next t) : t.hostView = s.hostView := by
  rw [exec_tick] at h
  obtain ⟨-, hs⟩ | ⟨-, -, hs⟩ | ⟨-, -, hs⟩ := execTick_cases s <;> rw [hs] at h <;> cases h
  · rfl
  · exact tickRoutine_hostView s

/-! ### Micro-operations act on the host's view -/

theorem map_hostView_modify (l : List Slot) (i : Nat) (g : Slot → Slot) (h : ∀ c, (g c.hostView).hostView = (g c).hostView) :
    ((l.map Slot.hostView).modify i g).map Slot.hostView = (l.modify i g).map Slot.hostView := by
  apply List.ext_getElem?
  intro j
  simp only [List.getElem?_map, List.getElem?_modify]
  rcases l[j]? with _ | c
  · rfl
  · by_cases hj : i = j <;> simp [hj, h]

theorem State.modifySlot_hostView (i : Nat) (g : Slot → Slot) (h : ∀ c, (g c.hostView).hostView = (g c).hostView) :
    (s.hostView.modifySlot i g).hostView = (s.modifySlot i g).hostView := by
  simp [State.hostView, State.modifySlot, map_hostView_modify s.ch i g h]

theorem MicroOp.apply_hostView (op : MicroOp) : (op.apply s.hostView).hostView = (op.apply s).hostView := by
  cases op
  case setDefpol | setCnt | writePinLevel | setPinMode | configureTick | resetCounter =>
    simp [MicroOp.apply, State.hostView]
  all_goals exact s.modifySlot_hostView _ _ fun _ => rfl

/-- Micro-operations take states with one host's view to states with one host's view. -/
theorem State.afterOps_hostView_congr {s t : State} (ops : List MicroOp) (h : t.hostView = s.hostView) :
    (t.afterOps ops).hostView = (s.afterOps ops).hostView := by
  induction ops generalizing s t with
  | nil => exact h
  | cons op ops ih =>
    refine ih ?_
    rw [← MicroOp.apply_hostView, h, MicroOp.apply_hostView]

/-- Settles O39: where a list of micro-operations runs depends on the platform only, and what it leaves in the host's view on that
view only, which a tick does not change. -/
theorem hostFieldsAreIndependentOfTicks : Obligations.HostFieldsAreIndependentOfTicks := by
  intro s t u ops htick hrun
  have hview : t.hostView = s.hostView := exec_tick_hostView htick
  obtain ⟨hdef, hs⟩ | ⟨-, hs⟩ := runOps_cases s ops <;> rw [hs] at hrun <;> cases hrun
  obtain ⟨-, -, -, -, -, hcfg⟩ := State.hostView_eq_iff.1 hview
  obtain ⟨hch, hdefpol, hmode, htmr, -, -⟩ := State.hostView_eq_iff.1 (State.afterOps_hostView_congr ops hview)
  exact ⟨t.afterOps ops, runOps_defined t (hcfg ▸ hdef), hch, hdefpol, hmode, htmr⟩

/-! ### What a command queues when it starts -/

/-- Command `i`, started in `s`, puts `ops` behind what `HOSTQ` holds and changes nothing else (R101). -/
def State.Queues (s : State) (i : Instr) (ops : List MicroOp) : Prop := exec i s = .next (s.setHostq (s.hostq ++ ops))

theorem startCommand_eq_iff {s : State} {ops ops' : List MicroOp} :
    startCommand ops s = .next (s.setHostq (s.hostq ++ ops')) ↔ ops' = ops := by
  simp [startCommand, State.setHostq, eq_comm]

theorem eq_setHostq_append_iff {s : State} {ops : List MicroOp} : s = s.setHostq (s.hostq ++ ops) ↔ ops = [] := by
  refine ⟨fun h => ?_, fun h => by simp [h, State.setHostq]⟩
  simpa using congrArg State.hostq h

theorem afterInit_eq_next_iff {s t : State} {k : Host.Outcome State Fault Refusal} :
    afterInit s k = .next t ↔ s.tmrRun = true ∧ k = .next t := by
  unfold afterInit
  cases s.tmrRun <;> simp

theorem queues_init_iff {s : State} {a : Byte} {ops : List MicroOp} :
    s.Queues (.init a) ops ↔ s.tmrRun = false ∧ ops = initOps (coerce a) s := by
  rw [State.Queues, exec_init, execInit]
  cases s.tmrRun <;> simp [startCommand_eq_iff]

theorem queues_setpol_iff {s : State} {p a : Byte} {ops : List MicroOp} :
    s.Queues (.setpol p a) ops ↔
      s.tmrRun = true ∧ ops = (s.matchPin p).map fun i => MicroOp.setPol i (coerce a) := by
  rw [State.Queues, exec_setpol, execSetpol, afterInit_eq_next_iff, startCommand_eq_iff]

theorem queues_setrate_iff {s : State} {p u d : Byte} {ops : List MicroOp} :
    s.Queues (.setrate p u d) ops ↔
      s.tmrRun = true ∧ ops = (s.matchPin p).flatMap fun i => [.setUp i u, .setDown i d] := by
  rw [State.Queues, exec_setrate, execSetrate, afterInit_eq_next_iff, startCommand_eq_iff]

theorem queues_detach_iff {s : State} {p : Byte} {ops : List MicroOp} :
    s.Queues (.detach p) ops ↔
      s.tmrRun = true ∧ (s.matchPin p).all s.detachable = true ∧ ops = (s.matchPin p).flatMap (detachSlotOps s) := by
  rw [State.Queues, exec_detach, execDetach, afterInit_eq_next_iff]
  cases (s.matchPin p).all s.detachable <;> simp [startCommand_eq_iff]

/-- The attach path: nothing when no slot is free (R106), the seven writes of R105 otherwise. -/
theorem attach_eq_iff {s : State} {p v : Byte} {imm : Bool} {ops : List MicroOp} :
    attach p v imm s = .next (s.setHostq (s.hostq ++ ops)) ↔
      (s.firstFree = none ∧ ops = []) ∨
        ∃ f a m, s.firstFree = some f ∧ s.cfg.resolve p = some (a, m) ∧
          ops = attachOps f p v a m s.defpol ++ immediateOps imm s := by
  unfold attach
  rcases s.firstFree with _ | f
  · simp [eq_setHostq_append_iff]
  · rcases s.cfg.resolve p with _ | ⟨a, m⟩
    · simp
    · simp [startCommand_eq_iff]

/-- The paths of `SETDUTY`: broadcast (R107), update (R104), attach (R105, R106). -/
theorem queues_setduty_iff {s : State} {p v : Byte} {imm : Bool} {ops : List MicroOp} :
    s.Queues (.setduty p v imm) ops ↔
      s.tmrRun = true ∧
        ((isBroadcast p = true ∧ ops = (s.matchPin p).map (fun i => MicroOp.setTarget i v) ++ immediateOps imm s) ∨
          (isBroadcast p = false ∧ ∃ j js, s.matchPin p = j :: js ∧ ops = MicroOp.setTarget j v :: immediateOps imm s) ∨
          (isBroadcast p = false ∧ s.matchPin p = [] ∧ attach p v imm s = .next (s.setHostq (s.hostq ++ ops)))) := by
  rw [State.Queues, exec_setduty, execSetduty, afterInit_eq_next_iff]
  cases isBroadcast p <;> rcases s.matchPin p with _ | ⟨j, js⟩ <;> simp [startCommand_eq_iff]

/-- A command is started with a list of micro-operations, or it does not answer a next state. -/
theorem queues_of_exec_next {s t : State} {i : Instr} (hi : i ≠ .tick) (h : exec i s = .next t) :
    ∃ ops, s.Queues i ops ∧ t = s.setHostq (s.hostq ++ ops) := by
  obtain ⟨ops, hs⟩ | ⟨r, hs⟩ | ⟨p, -, -, hs⟩ := exec_host_cases s i hi <;> rw [hs] at h <;> cases h
  exact ⟨ops, hs, rfl⟩

/-! ### A command reads the host's view only -/

@[simp] theorem Slot.hostView_matchesPin (p : Byte) (c : Slot) : c.hostView.matchesPin p = c.matchesPin p := rfl
@[simp] theorem Slot.hostView_free (c : Slot) : c.hostView.free = c.free := rfl

@[simp] theorem State.hostView_matchPin (p : Byte) : s.hostView.matchPin p = s.matchPin p := by
  simp [State.matchPin, Option.any_map]

@[simp] theorem State.hostView_firstFree : s.hostView.firstFree = s.firstFree := by
  simp [State.firstFree, Option.any_map]

@[simp] theorem State.hostView_detachable : s.hostView.detachable = s.detachable := by
  funext i
  simp only [State.detachable, State.hostView_ch, List.getElem?_map]
  cases s.ch[i]? <;> rfl

@[simp] theorem detachSlotOps_hostView : detachSlotOps s.hostView = detachSlotOps s := by
  funext i
  simp only [detachSlotOps, State.hostView_ch, List.getElem?_map]
  cases s.ch[i]? <;> rfl

@[simp] theorem initOps_hostView (q : Polarity) : initOps q s.hostView = initOps q s := by simp [initOps]

@[simp] theorem immediateOps_hostView (imm : Bool) : immediateOps imm s.hostView = immediateOps imm s := rfl

theorem queues_hostView_iff {i : Instr} {ops : List MicroOp} (hi : i ≠ .tick) :
    s.hostView.Queues i ops ↔ s.Queues i ops := by
  cases i with
  | init a => simp [queues_init_iff]
  | setduty p v imm => simp [queues_setduty_iff, attach_eq_iff]
  | setpol p a => simp [queues_setpol_iff]
  | detach p => simp [queues_detach_iff]
  | setrate p u d => simp [queues_setrate_iff]
  | tick => exact absurd rfl hi

/-- Settles O38: what a command queues depends on the host's view only, which a tick does not change. -/
theorem tickDoesNotChangeWhatACommandQueues : Obligations.TickDoesNotChangeWhatACommandQueues := by
  intro s t i ops hi htick hs
  change t.Queues i ops
  rw [← queues_hostView_iff t hi, exec_tick_hostView htick]
  exact (queues_hostView_iff s hi).2 hs

end Sys2Proof.Machine
end

