-- ==== Sys2Proof/Proofs/Writers.lean ====
section
/-!
PROOF. Who writes each piece of state (10_state.md R11 to R28), what no step changes (R13, R26, R33), and where `current` moves (R21).
-/

namespace Sys2Proof.Machine

variable (s : State)

/-! ### The block's inputs: `HOSTQ` and the model's own two -/

/-- The same block with other inputs to come. -/
def State.withInputs (q : List MicroOp) (p : List Word) (ts : List Turn) : State :=
  { s with hostq := q, program := p, schedule := ts }

section
variable (q : List MicroOp) (p : List Word) (ts : List Turn)
@[simp] theorem State.withInputs_cnt : (s.withInputs q p ts).cnt = s.cnt := rfl
@[simp] theorem State.withInputs_defpol : (s.withInputs q p ts).defpol = s.defpol := rfl
@[simp] theorem State.withInputs_ch : (s.withInputs q p ts).ch = s.ch := rfl
@[simp] theorem State.withInputs_out : (s.withInputs q p ts).out = s.out := rfl
@[simp] theorem State.withInputs_mode : (s.withInputs q p ts).mode = s.mode := rfl
@[simp] theorem State.withInputs_tmrRun : (s.withInputs q p ts).tmrRun = s.tmrRun := rfl
@[simp] theorem State.withInputs_cfg : (s.withInputs q p ts).cfg = s.cfg := rfl
@[simp] theorem State.withInputs_nCh : (s.withInputs q p ts).nCh = s.nCh := rfl
end

/-! ### The moves of the block -/

/-- The coming step is a `TICK`: the strobe's turn, and the timer runs (R136). -/
def State.Ticking : Prop := s.takeTurn.1 = .strobe ∧ s.tmrRun = true

/-- The coming step runs the micro-operation `op` (R101). -/
def State.RunsOp (op : MicroOp) : Prop := s.takeTurn.1 = .host ∧ s.hostq.head? = some op

/-- What a step can do to the block (R51, R56): a tick, a micro-operation, a foreign write, or nothing but a change of its inputs. -/
inductive State.Moves : State → Prop
  | tick {q p ts} : s.Ticking → State.Moves (tickRoutine (s.withInputs q p ts))
  | micro {q p ts} (op : MicroOp) : s.RunsOp op → State.Moves (op.apply (s.withInputs q p ts))
  | foreign {q p ts} (a : PortAddr) (v : Byte) : s.takeTurn.1 = .foreign a v →
      State.Moves ((s.withInputs q p ts).foreignWrite a v)
  | stay {q p ts} : State.Moves (s.withInputs q p ts)

/-- Every step is one of the moves. -/
theorem step_moves {t : State} (h : step s = .next t) : s.Moves t := by
  obtain ⟨s0, hT, ht⟩ | ⟨s0, a, v, hT, rfl⟩ | ⟨s0, op, ops, hT, hq, -, rfl⟩ | ⟨s0, w, ws, i, hT, -, -, hi, he⟩ |
    ⟨s0, hT, -, rfl | ⟨w, ws, -, rfl⟩⟩ := step_cases s h <;>
    obtain ⟨ts, rfl⟩ := takeTurn_eq s hT <;> have hturn := congrArg Prod.fst hT
  case inl =>
    obtain ⟨-, hs⟩ | ⟨htmr, -, hs⟩ | ⟨-, -, hs⟩ := execTick_cases (s.setSchedule ts) <;> rw [exec_tick, hs] at ht <;> cases ht
    · exact .stay
    · exact .tick ⟨hturn, htmr⟩
  case inr.inl => exact .foreign a v hturn
  case inr.inr.inl =>
    have hhead : s.hostq.head? = some op := by rw [← State.setSchedule_hostq s ts, hq]; rfl
    exact .micro op ⟨hturn, hhead⟩
  case inr.inr.inr.inl =>
    obtain ⟨ops, -, rfl⟩ := queues_of_exec_next hi he
    exact .stay
  all_goals exact .stay

/-! ### The writer of each field outside the table -/

section
variable {s} (op : MicroOp)

theorem MicroOp.apply_cnt_writer (h : (op.apply s).cnt ≠ s.cnt) : op = .setCnt (op.apply s).cnt := by
  cases op <;> simp [MicroOp.apply] at h ⊢

theorem MicroOp.apply_defpol_writer (h : (op.apply s).defpol ≠ s.defpol) : op = .setDefpol (op.apply s).defpol := by
  cases op <;> simp [MicroOp.apply] at h ⊢

theorem MicroOp.apply_tmrRun_writer (h : (op.apply s).tmrRun ≠ s.tmrRun) :
    (op.apply s).tmrRun = true ∧ ∃ n, op = .configureTick n := by
  cases op <;> simp [MicroOp.apply] at h ⊢

theorem MicroOp.apply_mode_writer (h : (op.apply s).mode ≠ s.mode) :
    ∃ p d, op = .setPinMode p d ∧ (op.apply s).mode = PinModes.write s.mode p.toNat d := by
  cases op <;> simp [MicroOp.apply] at h ⊢

theorem MicroOp.apply_out_writer (h : (op.apply s).out ≠ s.out) : ∃ p l, op = .writePinLevel p l := by
  cases op <;> simp [MicroOp.apply] at h ⊢

end

section
variable {s} {t : State} (h : s.Moves t)
include h

theorem State.Moves.cnt_writer (hne : t.cnt ≠ s.cnt) : s.Ticking ∧ t.cnt = s.cnt + 1#8 ∨ s.RunsOp (.setCnt t.cnt) := by
  cases h with
  | tick ht => exact .inl ⟨ht, by simp⟩
  | micro op hop => exact .inr (op.apply_cnt_writer hne ▸ hop)
  | foreign => simp at hne
  | stay => simp at hne

theorem State.Moves.defpol_writer (hne : t.defpol ≠ s.defpol) : s.RunsOp (.setDefpol t.defpol) := by
  cases h with
  | micro op hop => exact op.apply_defpol_writer hne ▸ hop
  | tick | foreign | stay => simp at hne

theorem State.Moves.tmrRun_writer (hne : t.tmrRun ≠ s.tmrRun) : t.tmrRun = true ∧ ∃ n, s.RunsOp (.configureTick n) := by
  cases h with
  | micro op hop =>
    obtain ⟨htrue, n, rfl⟩ := op.apply_tmrRun_writer hne
    exact ⟨htrue, n, hop⟩
  | tick | foreign | stay => simp at hne

theorem State.Moves.mode_writer (hne : t.mode ≠ s.mode) :
    ∃ p d, s.RunsOp (.setPinMode p d) ∧ t.mode = PinModes.write s.mode p.toNat d := by
  cases h with
  | micro op hop =>
    obtain ⟨p, d, rfl, hmode⟩ := op.apply_mode_writer hne
    exact ⟨p, d, hop, hmode⟩
  | tick | foreign | stay => simp at hne

theorem State.Moves.out_writer (hne : t.out ≠ s.out) :
    s.Ticking ∨ (∃ p l, s.RunsOp (.writePinLevel p l)) ∨ ∃ a v, s.takeTurn.1 = .foreign a v := by
  cases h with
  | tick ht => exact .inl ht
  | micro op hop =>
    obtain ⟨p, l, rfl⟩ := op.apply_out_writer hne
    exact .inr (.inl ⟨p, l, hop⟩)
  | foreign a v hturn => exact .inr (.inr ⟨a, v, hturn⟩)
  | stay => simp at hne

end

/-! ### The writers of a slot's fields -/

/-- What a micro-operation makes of slot `i`, which holds `c`. -/
def MicroOp.onSlot (op : MicroOp) (i : Nat) (c : Slot) : Slot :=
  match op with
  | .setPin j p     => if j = i then { c with pin := p } else c
  | .setPol j q     => if j = i then { c with pol := q } else c
  | .setOreg j a    => if j = i then { c with oreg := a } else c
  | .setMask j m    => if j = i then { c with mask := m } else c
  | .setTarget j v  => if j = i then { c with target := v } else c
  | .setCurrent j v => if j = i then { c with current := v } else c
  | .setUp j v      => if j = i then { c with up := v } else c
  | .setDown j v    => if j = i then { c with down := v } else c
  | .setDefpol _ | .setCnt _ | .writePinLevel _ _ | .setPinMode _ _ | .configureTick _ | .resetCounter _ => c

theorem State.modifySlot_getElem? (j i : Nat) (g : Slot → Slot) :
    (s.modifySlot j g).ch[i]? = s.ch[i]?.map fun c => if j = i then g c else c := by
  simp only [State.modifySlot_ch, List.getElem?_modify]
  by_cases h : j = i <;> simp [h]

theorem MicroOp.apply_getElem? (op : MicroOp) (i : Nat) : (op.apply s).ch[i]? = s.ch[i]?.map (op.onSlot i) := by
  cases op
  case setDefpol | setCnt | writePinLevel | setPinMode | configureTick | resetCounter =>
    simp only [MicroOp.apply, State.setDefpol_ch, State.setCnt_ch, State.writePinLevel_ch, State.setMode_ch, State.setTmrRun_ch]
    cases s.ch[i]? <;> rfl
  all_goals exact s.modifySlot_getElem? _ i _

theorem tickRoutine_getElem? (i : Nat) :
    (tickRoutine s).ch[i]? = s.ch[i]?.map fun c => if s.cnt = 255#8 then fadedIf c else c := by
  rw [tickRoutine_ch]
  by_cases h : s.cnt = 255#8 <;> simp [h]

/-- A tick changes `current` of a slot only at a cycle start, of an occupied slot, to `FADE` (R84, R88). -/
theorem fadedIf_current {cnt : Byte} {c d : Slot} (hd : d = if cnt = 255#8 then fadedIf c else c) (hne : d.current ≠ c.current) :
    cnt = 255#8 ∧ c.occupied = true ∧ d.current = fade c.current c.target c.up c.down := by
  subst hd
  unfold fadedIf at hne ⊢
  split_ifs at hne ⊢ with hcnt hocc
  · exact ⟨hcnt, hocc, rfl⟩
  all_goals exact absurd rfl hne

/-- Slot `i` going from `c` to `d`: each field that differs was written by its own micro-operation, or is a `current` that a cycle-start
tick faded (R14, R16, R18, R19). -/
def State.SlotWriters (i : Nat) (c d : Slot) : Prop :=
  (d.current ≠ c.current →
    s.Ticking ∧ s.cnt = 255#8 ∧ c.occupied = true ∧ d.current = fade c.current c.target c.up c.down ∨
      s.RunsOp (.setCurrent i d.current)) ∧
  (d.pin ≠ c.pin → s.RunsOp (.setPin i d.pin)) ∧ (d.pol ≠ c.pol → s.RunsOp (.setPol i d.pol)) ∧
  (d.oreg ≠ c.oreg → s.RunsOp (.setOreg i d.oreg)) ∧ (d.mask ≠ c.mask → s.RunsOp (.setMask i d.mask)) ∧
  (d.target ≠ c.target → s.RunsOp (.setTarget i d.target)) ∧ (d.up ≠ c.up → s.RunsOp (.setUp i d.up)) ∧
  (d.down ≠ c.down → s.RunsOp (.setDown i d.down))

theorem State.SlotWriters.refl (i : Nat) (c : Slot) : s.SlotWriters i c c := by simp [State.SlotWriters]

theorem State.SlotWriters.of_tick (ht : s.Ticking) (i : Nat) (c : Slot) :
    s.SlotWriters i c (if s.cnt = 255#8 then fadedIf c else c) := by
  refine ⟨fun hne => .inl ⟨ht, fadedIf_current rfl hne⟩, ?_⟩
  unfold fadedIf
  split_ifs <;> simp [Slot.faded]

theorem State.SlotWriters.of_micro {op : MicroOp} (hop : s.RunsOp op) (i : Nat) (c : Slot) :
    s.SlotWriters i c (op.onSlot i c) := by
  cases op
  case setDefpol | setCnt | writePinLevel | setPinMode | configureTick | resetCounter => exact .refl s i c
  all_goals
    rename_i j x
    by_cases hj : j = i
    · subst hj
      simp [State.SlotWriters, MicroOp.onSlot, hop]
    · rw [MicroOp.onSlot, if_neg hj]
      exact .refl s i c

theorem State.Moves.slotWriters {t : State} (h : s.Moves t) {i : Nat} {c d : Slot} (hc : s.ch[i]? = some c)
    (hd : t.ch[i]? = some d) : s.SlotWriters i c d := by
  cases h with
  | tick ht =>
    simp only [tickRoutine_getElem?, State.withInputs_ch, State.withInputs_cnt, hc, Option.map_some, Option.some.injEq] at hd
    exact hd ▸ .of_tick s ht i c
  | micro op hop =>
    simp only [MicroOp.apply_getElem?, State.withInputs_ch, hc, Option.map_some, Option.some.injEq] at hd
    exact hd ▸ .of_micro s hop i c
  | foreign | stay =>
    simp only [State.foreignWrite_ch, State.withInputs_ch, hc, Option.some.injEq] at hd
    exact hd ▸ .refl s i c

/-- Settles O40: each piece's writer, read off the moves of the block. -/
theorem eachStateHasItsWritersOnly : Obligations.EachStateHasItsWritersOnly := by
  intro s t h
  have hm := step_moves s h
  exact ⟨hm.cnt_writer, hm.defpol_writer, hm.tmrRun_writer, hm.mode_writer, hm.out_writer,
    fun _ _ _ hc hd => hm.slotWriters s hc hd⟩

/-! ### What no step changes -/

/-- Settles O41: no move of the block touches the number of slots or the platform, and the one writer of `TMR_RUN` sets it. -/
theorem capacityParametersAndTimerAreKept : Obligations.CapacityParametersAndTimerAreKept := by
  intro s t h
  have hm := step_moves s h
  have hkept : t.nCh = s.nCh ∧ t.cfg = s.cfg := by
    cases hm <;> simp
  refine ⟨hkept.1, hkept.2, fun hrun => ?_⟩
  by_contra hstop
  exact hstop (hm.tmrRun_writer fun e => hstop (e.trans hrun)).1

/-! ### Where `current` moves -/

/-- With the timer running, no queued micro-operation of an invariant state is one that only `INIT` has. -/
theorem State.Inv.not_initOnly {s : State} (h : s.Inv) (hrun : s.tmrRun = true) {op : MicroOp} (hop : s.RunsOp op) :
    op.initOnly = false :=
  (h.ahead 0 hrun).2 op (List.mem_of_mem_head? hop.2)

/-- Settles O42: the other writer of `current` is a micro-operation of `INIT`, which the invariant excludes once the timer runs; a
cycle-start tick counts from 255 to 0. -/
theorem currentChangesOnlyAtCycleStart : Obligations.CurrentChangesOnlyAtCycleStart := by
  intro s t i c d hinv hrun h hc hd hne
  have hm := step_moves s h
  obtain ⟨ht, hcnt, -, -⟩ | hop := (hm.slotWriters s hc hd).1 hne
  · have hcount : t.cnt = s.cnt + 1#8 := by
      cases hm with
      | tick => simp
      | micro op hop => exact absurd (ht.1.symm.trans hop.1) (by simp)
      | foreign a v hturn => exact absurd (ht.1.symm.trans hturn) (by simp)
      | stay =>
        rw [State.withInputs_ch, hc] at hd
        exact absurd (Option.some.inj hd ▸ rfl) hne
    exact ⟨ht.1, hcount.trans ((succ_eq_zero_iff _).2 hcnt)⟩
  · have := hinv.not_initOnly hrun hop
    simp [MicroOp.initOnly] at this

/-! ### Runs of ticks -/

/-- Where `TICK` is defined, it stays defined: the tick routine moves no port address (R90). -/
theorem tickRoutine_ports (h : ∀ c ∈ s.ch, c.occupied = true → s.cfg.isPort c.oreg = true) :
    ∀ c ∈ (tickRoutine s).ch, c.occupied = true → (tickRoutine s).cfg.isPort c.oreg = true := by
  rw [tickRoutine_ch, tickRoutine_cfg]
  split
  · simpa using h
  · exact h

theorem ticks_succ (n : Nat) (hrun : s.tmrRun = true) (hports : ∀ c ∈ s.ch, c.occupied = true → s.cfg.isPort c.oreg = true) :
    ticks (n + 1) s = ticks n (tickRoutine s) := by
  rw [ticks, exec_tick, execTick_next s hrun hports]

/-- Settles O14, by induction on the number of ticks: one tick advances the counter by one, and fades only when it wraps. -/
theorem currentIsHeldWithinACycle : Obligations.CurrentIsHeldWithinACycle := by
  intro s n hrun hports
  induction n generalizing s with
  | zero => exact ⟨s, rfl, by have := s.cnt.isLt; omega, fun _ => rfl⟩
  | succ n ih =>
    obtain ⟨t, ht, hcnt, hch⟩ := ih (tickRoutine s) (by simpa using hrun) (tickRoutine_ports s hports)
    have hstep : (tickRoutine s).cnt.toNat = (s.cnt.toNat + 1) % 256 := by simp [BitVec.toNat_add]
    refine ⟨t, by rw [ticks_succ s n hrun hports, ht], by omega, fun hlt => ?_⟩
    have hwrap : s.cnt ≠ 255#8 := by
      intro e
      simp only [e, BitVec.toNat_ofNat] at hlt
      omega
    rw [hch (by omega), tickRoutine_ch, if_neg hwrap]

end Sys2Proof.Machine
end

