-- ==== Sys2Proof/Proofs/Ownership.lean ====
section
/-!
PROOF. Ownership of pins along a queue of micro-operations (10_state.md R14, R20; 20_memory.md R46, R52; 41_host_commands.md R115): which
writes keep the channel table well formed, and that each command queues such writes only.
-/

namespace Sys2Proof.Machine

variable {s t : State}

/-! ### Writes that keep the table well formed -/

/-- A slot going from `c` to `d` takes no pin: it is freed, or it keeps its pin and, while it is occupied, its port bits (R46). -/
def Slot.KeepsOwner (c d : Slot) : Prop :=
  d.pin = 0xFF#8 ∨ d.pin = c.pin ∧ (c.occupied = true → d.oreg = c.oreg ∧ d.mask = c.mask)

@[simp] theorem free_pin_msb : (0xFF#8).msb = true := by decide

theorem Slot.KeepsOwner.refl (c : Slot) : c.KeepsOwner c := .inr ⟨rfl, fun _ => ⟨rfl, rfl⟩⟩

theorem Slot.KeepsOwner.ite {P : Prop} [Decidable P] {c d : Slot} (h : P → c.KeepsOwner d) :
    c.KeepsOwner (if P then d else c) := by
  split
  next hP => exact h hP
  next => exact .refl c

/-- A slot that is occupied after such a write was occupied before, by the same pin and with the same port bits. -/
theorem Slot.KeepsOwner.of_occupied {c d : Slot} (h : c.KeepsOwner d) (hd : d.occupied = true) :
    c.occupied = true ∧ d.pin = c.pin ∧ d.oreg = c.oreg ∧ d.mask = c.mask := by
  obtain hfree | ⟨hpin, hport⟩ := h
  · simp [Slot.occupied, hfree] at hd
  · have hc : c.occupied = true := by simpa [Slot.occupied, hpin] using hd
    exact ⟨hc, hpin, hport hc⟩

/-- A table whose slots all keep their owner, or are freed, is as well formed as before. -/
theorem State.TableOk.of_keepsOwner (h : s.TableOk) (hcfg : t.cfg = s.cfg)
    (hslot : ∀ (i : Nat) (d : Slot), t.ch[i]? = some d → ∃ c, s.ch[i]? = some c ∧ c.KeepsOwner d) : t.TableOk where
  pins d hd := by
    obtain ⟨i, hi⟩ := List.getElem?_of_mem hd
    obtain ⟨c, hc, hfree | ⟨hpin, -⟩⟩ := hslot i d hi
    · exact .inl hfree
    · simpa [Slot.occupied, hpin] using h.pins c (List.mem_of_getElem? hc)
  unique i j d d' hi hj hd hd' e := by
    obtain ⟨c, hc, hk⟩ := hslot i d hi
    obtain ⟨c', hc', hk'⟩ := hslot j d' hj
    obtain ⟨hocc, hpin, -⟩ := hk.of_occupied hd
    obtain ⟨hocc', hpin', -⟩ := hk'.of_occupied hd'
    exact h.unique i j c c' hc hc' hocc hocc' (hpin ▸ hpin' ▸ e)
  resolved d hd hocc := by
    obtain ⟨i, hi⟩ := List.getElem?_of_mem hd
    obtain ⟨c, hc, hk⟩ := hslot i d hi
    obtain ⟨hocc', hpin, horeg, hmask⟩ := hk.of_occupied hocc
    rw [hcfg, hpin, horeg, hmask]
    exact h.resolved c (List.mem_of_getElem? hc) hocc'

theorem State.TableOk.of_hostView_eq (h : s.TableOk) (e : t.hostView = s.hostView) : t.TableOk := by
  obtain ⟨hch, -, -, -, -, hcfg⟩ := State.hostView_eq_iff.1 e
  refine h.of_keepsOwner hcfg fun i d hd => ?_
  have hi := congrArg (·[i]?) hch
  simp only [List.getElem?_map, hd, Option.map_some] at hi
  obtain ⟨c, hc, hview⟩ := Option.map_eq_some_iff.1 hi.symm
  simp only [Slot.hostView, Slot.mk.injEq] at hview
  obtain ⟨hpin, -, horeg, hmask, -⟩ := hview
  exact ⟨c, hc, .inr ⟨hpin.symm, fun _ => ⟨horeg.symm, hmask.symm⟩⟩⟩

/-- A table in which every slot is free is well formed. -/
theorem State.TableOk.of_all_free (h : ∀ c ∈ s.ch, c.pin = 0xFF#8) : s.TableOk := by
  have hfree : ∀ c ∈ s.ch, ¬ c.occupied = true := fun c hc => by simp [Slot.occupied, h c hc]
  exact ⟨fun c hc => .inl (h c hc), fun i j c d hc _ ho => absurd ho (hfree c (List.mem_of_getElem? hc)),
    fun c hc ho => absurd ho (hfree c hc)⟩

/-- Slot `f` takes a pin that no slot owns, with the port bits `RESOLVE` gives for it: the table stays well formed (R105, R115). -/
theorem State.TableOk.claim (h : s.TableOk) {f : Nat} {p : Byte} {a : PortAddr} {m : Byte} {g : Slot → Slot}
    (hp : s.cfg.resolve p = some (a, m)) (hnew : ∀ c ∈ s.ch, c.pin ≠ p)
    (hg : ∀ c, (g c).pin = p ∧ (g c).oreg = a ∧ (g c).mask = m) : (s.modifySlot f g).TableOk := by
  have hocc : p.msb = false := (resolve_isPort hp).2
  -- what a slot of the new table is
  have hslot : ∀ {i d}, (s.modifySlot f g).ch[i]? = some d →
      (i = f ∧ d.pin = p ∧ d.oreg = a ∧ d.mask = m) ∨ (i ≠ f ∧ s.ch[i]? = some d) := by
    intro i d hd
    rw [State.modifySlot_getElem?, Option.map_eq_some_iff] at hd
    obtain ⟨c, hc, rfl⟩ := hd
    by_cases hi : f = i
    · exact .inl ⟨hi.symm, by simpa [hi] using hg c⟩
    · exact .inr ⟨fun e => hi e.symm, by simpa [hi] using hc⟩
  refine ⟨fun d hd => ?_, fun i j d d' hi hj hd hd' e => ?_, fun d hd ho => ?_⟩
  · obtain ⟨i, hi⟩ := List.getElem?_of_mem hd
    obtain ⟨-, hpin, -⟩ | ⟨-, hold⟩ := hslot hi
    · exact .inr (by simp [Slot.occupied, hpin, hocc])
    · exact h.pins d (List.mem_of_getElem? hold)
  · obtain ⟨hif, hpin, -⟩ | ⟨-, hold⟩ := hslot hi <;> obtain ⟨hjf, hpin', -⟩ | ⟨-, hold'⟩ := hslot hj
    · rw [hif, hjf]
    · exact absurd (e.symm.trans hpin) (hnew d' (List.mem_of_getElem? hold'))
    · exact absurd (e.trans hpin') (hnew d (List.mem_of_getElem? hold))
    · exact h.unique i j d d' hold hold' hd hd' e
  · obtain ⟨i, hi⟩ := List.getElem?_of_mem hd
    obtain ⟨-, hpin, horeg, hmask⟩ | ⟨-, hold⟩ := hslot hi
    · simp [hpin, horeg, hmask, hp]
    · exact h.resolved d (List.mem_of_getElem? hold) ho

/-! ### Micro-operations that keep the table well formed -/

/-- A micro-operation that leaves every owner alone, seen from state `s`: it frees a slot, or it writes the port bits of a slot that is free
in `s`, or it writes neither `pin`, `oreg` nor `mask`; and it is none of those only `INIT` has. -/
def MicroOp.SparesOwners (s : State) : MicroOp → Prop
  | .setPin _ p => p = 0xFF#8
  | .setOreg i _ | .setMask i _ => ∀ c, s.ch[i]? = some c → c.free = true
  | .setDefpol _ | .setCurrent _ _ | .configureTick _ => False
  | .setCnt _ | .setPol _ _ | .setTarget _ _ | .setUp _ _ | .setDown _ _ | .writePinLevel _ _ | .setPinMode _ _
  | .resetCounter _ => True

theorem MicroOp.SparesOwners.not_initOnly {op : MicroOp} (h : op.SparesOwners s) : op.initOnly = false := by
  cases op
  case setDefpol | setCurrent | configureTick => exact h.elim
  all_goals rfl

theorem MicroOp.SparesOwners.keepsOwner {op : MicroOp} (h : op.SparesOwners s) {i : Nat} {c : Slot} (hc : s.ch[i]? = some c) :
    c.KeepsOwner (op.onSlot i c) := by
  cases op
  case setDefpol | setCurrent | configureTick => exact h.elim
  case setCnt | writePinLevel | setPinMode | resetCounter => exact .refl c
  case setPin j p => exact .ite fun _ => .inl h
  case setOreg j x | setMask j x =>
    refine .ite fun hj => .inr ⟨rfl, fun hocc => ?_⟩
    have hfree : c.free = true := h c (hj ▸ hc)
    simp [Slot.occupied, show c.pin.msb = true from hfree] at hocc
  all_goals exact .ite fun _ => .inr ⟨rfl, fun _ => ⟨rfl, rfl⟩⟩

/-- A slot that is free stays free. -/
theorem MicroOp.SparesOwners.keeps_free {op : MicroOp} (h : op.SparesOwners s) {i : Nat}
    (hfree : ∀ c, s.ch[i]? = some c → c.free = true) : ∀ d, (op.apply s).ch[i]? = some d → d.free = true := by
  intro d hd
  rw [MicroOp.apply_getElem?, Option.map_eq_some_iff] at hd
  obtain ⟨c, hc, rfl⟩ := hd
  obtain hpin | ⟨hpin, -⟩ := h.keepsOwner hc
  · simp [Slot.free, hpin]
  · simpa [Slot.free, hpin] using hfree c hc

/-- What spares the owners still does after another such write. -/
theorem MicroOp.SparesOwners.apply {op op' : MicroOp} (h : op.SparesOwners s) (h' : op'.SparesOwners s) :
    op'.SparesOwners (op.apply s) := by
  cases op'
  case setOreg i x | setMask i x => exact h.keeps_free h'
  all_goals exact h'

theorem MicroOp.SparesOwners.tableOk {op : MicroOp} (h : op.SparesOwners s) (hs : s.TableOk) : (op.apply s).TableOk := by
  refine hs.of_keepsOwner (MicroOp.apply_cfg s op) fun i d hd => ?_
  rw [MicroOp.apply_getElem?, Option.map_eq_some_iff] at hd
  obtain ⟨c, hc, rfl⟩ := hd
  exact ⟨c, hc, h.keepsOwner hc⟩

theorem State.TableOk.afterOps (hs : s.TableOk) {ops : List MicroOp} (h : ∀ op ∈ ops, op.SparesOwners s) :
    (s.afterOps ops).TableOk := by
  induction ops generalizing s with
  | nil => exact hs
  | cons op ops ih =>
    obtain ⟨hop, hops⟩ := List.forall_mem_cons.1 h
    exact ih (hop.tableOk hs) fun op' ho => hop.apply (hops op' ho)

/-- The table is well formed after any number of the micro-operations, so wherever a tick falls between two of them (R52 c). -/
def State.TableAlong (s : State) (ops : List MicroOp) : Prop := ∀ k, (s.afterOps (ops.take k)).TableOk

theorem State.TableOk.along (hs : s.TableOk) {ops : List MicroOp} (h : ∀ op ∈ ops, op.SparesOwners s) : s.TableAlong ops :=
  fun _ => hs.afterOps fun op ho => h op (List.mem_of_mem_take ho)

theorem State.TableAlong.append {xs ys : List MicroOp} (hx : s.TableAlong xs) (hy : (s.afterOps xs).TableAlong ys) :
    s.TableAlong (xs ++ ys) := by
  intro k
  rw [List.take_append, State.afterOps_append]
  rcases Nat.le_total k xs.length with hk | hk
  · simpa [Nat.sub_eq_zero_of_le hk] using hx k
  · simpa [List.take_of_length_le hk] using hy (k - xs.length)

/-! ### What a queue must meet -/

/-- Every owned pin is an output (R115 c). -/
def State.DirectionsOk (s : State) : Prop := ∀ c ∈ s.ch, c.occupied = true → s.modeAt c.pin = .output

theorem State.DirectionsOk.of_pins (h : s.DirectionsOk) (hmode : t.mode = s.mode)
    (hpins : ∀ d ∈ t.ch, ∃ c ∈ s.ch, c.pin = d.pin) : t.DirectionsOk := by
  intro d hd hocc
  obtain ⟨c, hc, hpin⟩ := hpins d hd
  have hout := h c hc (by simpa [Slot.occupied, hpin] using hocc)
  rwa [hpin, State.modeAt, ← hmode] at hout

theorem State.DirectionsOk.of_hostView_eq (h : s.DirectionsOk) (e : t.hostView = s.hostView) : t.DirectionsOk := by
  obtain ⟨hch, -, hmode, -⟩ := State.hostView_eq_iff.1 e
  refine h.of_pins hmode fun d hd => ?_
  have hmem : d.hostView ∈ s.ch.map Slot.hostView := hch ▸ List.mem_map_of_mem hd
  obtain ⟨c, hc, hview⟩ := List.mem_map.1 hmem
  exact ⟨c, hc, show c.hostView.pin = d.hostView.pin from congrArg _ hview⟩

/-- What the machine's invariant asks of the queue `ops` in state `s`: its three clauses on `HOSTQ`. -/
structure State.QueueOk (s : State) (ops : List MicroOp) : Prop where
  queued     : ∀ op ∈ ops, op.defined s.cfg = true
  ahead      : ∀ k, (s.afterOps (ops.take k)).tmrRun = true →
                 (s.afterOps (ops.take k)).TableOk ∧ ∀ op ∈ ops.drop k, op.initOnly = false
  directions : (s.afterOps ops).tmrRun = true → (s.afterOps ops).DirectionsOk

/-- The first micro-operation has run: the rest of the queue is as it must be. -/
theorem State.QueueOk.tail {op : MicroOp} {ops : List MicroOp} (h : s.QueueOk (op :: ops)) : (op.apply s).QueueOk ops where
  queued op' ho := by simpa using h.queued op' (by simp [ho])
  ahead k := h.ahead (k + 1)
  directions := h.directions

theorem State.QueueOk.of_hostView_eq {ops : List MicroOp} (h : s.QueueOk ops) (e : t.hostView = s.hostView) : t.QueueOk ops where
  queued := by
    obtain ⟨-, -, -, -, -, hcfg⟩ := State.hostView_eq_iff.1 e
    rw [hcfg]
    exact h.queued
  ahead k hrun := by
    have hview := State.afterOps_hostView_congr (ops.take k) e
    obtain ⟨-, -, -, htmr, -⟩ := State.hostView_eq_iff.1 hview
    obtain ⟨htable, hops⟩ := h.ahead k (htmr ▸ hrun)
    exact ⟨htable.of_hostView_eq hview, hops⟩
  directions hrun := by
    have hview := State.afterOps_hostView_congr ops e
    obtain ⟨-, -, -, htmr, -⟩ := State.hostView_eq_iff.1 hview
    exact (h.directions (htmr ▸ hrun)).of_hostView_eq hview

/-- With no command in progress, the table itself is well formed and every owned pin an output, once the timer runs. -/
theorem State.QueueOk.idle (h : s.QueueOk []) (hrun : s.tmrRun = true) : s.TableOk ∧ s.DirectionsOk :=
  ⟨(h.ahead 0 hrun).1, h.directions hrun⟩

/-! ### The queue of a command that keeps pins and directions -/

/-- The writes of `SETDUTY` on owned pins, `SETPOL` and `SETRATE` (R104, R107 to R109, R111). -/
def MicroOp.plain : MicroOp → Bool
  | .setCnt _ | .setPol _ _ | .setTarget _ _ | .setUp _ _ | .setDown _ _ | .resetCounter _ => true
  | .setDefpol _ | .setPin _ _ | .setOreg _ _ | .setMask _ _ | .setCurrent _ _ | .writePinLevel _ _ | .setPinMode _ _
  | .configureTick _ => false

theorem MicroOp.plain_spares {op : MicroOp} (h : op.plain = true) : op.SparesOwners s := by
  cases op <;> simp [MicroOp.plain, MicroOp.SparesOwners] at h ⊢

theorem MicroOp.plain_defined {op : MicroOp} (h : op.plain = true) (c : Config) : op.defined c = true := by
  cases op <;> simp [MicroOp.plain, MicroOp.defined] at h ⊢

theorem MicroOp.plain_onSlot_pin {op : MicroOp} (h : op.plain = true) (i : Nat) (c : Slot) : (op.onSlot i c).pin = c.pin := by
  cases op <;> simp [MicroOp.plain, MicroOp.onSlot] at h ⊢ <;> split <;> rfl

theorem MicroOp.plain_mode {op : MicroOp} (h : op.plain = true) : (op.apply s).mode = s.mode := by
  by_contra hne
  obtain ⟨p, d, rfl, -⟩ := op.apply_mode_writer hne
  simp [MicroOp.plain] at h

theorem State.DirectionsOk.afterOps_plain (hs : s.DirectionsOk) {ops : List MicroOp} (h : ∀ op ∈ ops, op.plain = true) :
    (s.afterOps ops).DirectionsOk := by
  induction ops generalizing s with
  | nil => exact hs
  | cons op ops ih =>
    obtain ⟨hop, hops⟩ := List.forall_mem_cons.1 h
    refine ih (hs.of_pins (MicroOp.plain_mode hop) fun d hd => ?_) hops
    obtain ⟨i, hi⟩ := List.getElem?_of_mem hd
    rw [MicroOp.apply_getElem?, Option.map_eq_some_iff] at hi
    obtain ⟨c, hc, rfl⟩ := hi
    exact ⟨c, List.mem_of_getElem? hc, (MicroOp.plain_onSlot_pin hop i c).symm⟩

theorem State.QueueOk.of_plain (ht : s.TableOk) (hd : s.DirectionsOk) {ops : List MicroOp} (h : ∀ op ∈ ops, op.plain = true) :
    s.QueueOk ops where
  queued op ho := MicroOp.plain_defined (h op ho) _
  ahead k _ := ⟨ht.along (fun op ho => MicroOp.plain_spares (h op ho)) k,
    fun op ho => (MicroOp.plain_spares (s := s) (h op (List.mem_of_mem_drop ho))).not_initOnly⟩
  directions _ := hd.afterOps_plain h

theorem immediateOps_plain (imm : Bool) : ∀ op ∈ immediateOps imm s, op.plain = true := by
  cases imm <;> simp [immediateOps, MicroOp.plain]

/-! ### The queue of an attach (R105) -/

section
variable {f : Nat} {p v : Byte} {a : PortAddr} {m : Byte} {q : Polarity}

theorem attachOps_eq_dropLast_append : attachOps f p v a m q = (attachOps f p v a m q).dropLast ++ [.setPin f p] := rfl

theorem attachOps_ch : (s.afterOps (attachOps f p v a m q)).ch =
    (s.modifySlot f fun c => { c with oreg := a, mask := m, pol := q, target := v, pin := p }).ch := by
  simp only [attachOps, State.afterOps_cons, State.afterOps_nil, MicroOp.apply, State.modifySlot_ch, State.setMode_ch,
    State.writePinLevel_ch, List.modify_modify_eq]
  rfl

theorem attachOps_mode : (s.afterOps (attachOps f p v a m q)).mode = PinModes.write s.mode p.toNat .output := by
  simp [attachOps, MicroOp.apply]

theorem attachOps_dropLast_spares (hfree : ∀ c, s.ch[f]? = some c → c.free = true) :
    ∀ op ∈ (attachOps f p v a m q).dropLast, op.SparesOwners s := by
  simpa [attachOps, MicroOp.SparesOwners] using hfree

theorem attachOps_not_initOnly : ∀ op ∈ attachOps f p v a m q, op.initOnly = false := by
  simp [attachOps, MicroOp.initOnly]

theorem attachOps_tableOk (ht : s.TableOk) (hp : s.cfg.resolve p = some (a, m)) (hnew : ∀ c ∈ s.ch, c.pin ≠ p) :
    (s.afterOps (attachOps f p v a m q)).TableOk := by
  have hclaim : (s.modifySlot f fun c => { c with oreg := a, mask := m, pol := q, target := v, pin := p }).TableOk :=
    ht.claim hp hnew fun _ => ⟨rfl, rfl, rfl⟩
  exact hclaim.of_keepsOwner (by simp) fun i d hd => ⟨d, by rwa [attachOps_ch] at hd, .refl d⟩

/-- The pin attached is made an output, and no other pin's direction moves. -/
theorem attachOps_directionsOk (hd : s.DirectionsOk) (hwf : PinModes.wf s.mode = true) (hnew : ∀ c ∈ s.ch, c.pin ≠ p) :
    (s.afterOps (attachOps f p v a m q)).DirectionsOk := by
  intro d hmem hocc
  rw [State.modeAt, attachOps_mode]
  rw [attachOps_ch] at hmem
  obtain ⟨i, hi⟩ := List.getElem?_of_mem hmem
  rw [State.modifySlot_getElem?, Option.map_eq_some_iff] at hi
  obtain ⟨c, hc, rfl⟩ := hi
  have hcmem := List.mem_of_getElem? hc
  split_ifs at hocc ⊢
  · exact PinModes.read_write_same hwf _ _
  · rw [PinModes.read_write_other _ fun e => hnew c hcmem (BitVec.eq_of_toNat_eq e)]
    exact hd c hcmem hocc

theorem attachOps_queueOk (imm : Bool) (ht : s.TableOk) (hd : s.DirectionsOk) (hwf : PinModes.wf s.mode = true)
    (hp : s.cfg.resolve p = some (a, m)) (hnew : ∀ c ∈ s.ch, c.pin ≠ p) (hfree : ∀ c, s.ch[f]? = some c → c.free = true) :
    s.QueueOk (attachOps f p v a m q ++ immediateOps imm s) := by
  have hvalid : s.cfg.validPin p = true := by simp [Config.validPin, hp]
  have hprep := attachOps_dropLast_spares (p := p) (v := v) (a := a) (m := m) (q := q) hfree
  have himm : ∀ op ∈ immediateOps imm s, op.SparesOwners (s.afterOps (attachOps f p v a m q)) :=
    fun op ho => MicroOp.plain_spares (immediateOps_plain imm op ho)
  have hdone := attachOps_tableOk (f := f) (v := v) (q := q) ht hp hnew
  have hattach : s.TableAlong (attachOps f p v a m q) := by
    rw [attachOps_eq_dropLast_append]
    refine (ht.along hprep).append fun k => ?_
    rcases k with _ | k
    · exact ht.afterOps hprep
    · simpa [attachOps] using hdone
  refine ⟨?_, fun k _ => ⟨hattach.append (hdone.along himm) k, fun op ho => ?_⟩, fun _ => ?_⟩
  · simp only [List.forall_mem_append]
    exact ⟨by simp [attachOps, MicroOp.defined, hvalid], immediateOps_defined s imm⟩
  · obtain ho | ho := List.mem_append.1 (List.mem_of_mem_drop ho)
    · exact attachOps_not_initOnly op ho
    · exact (himm op ho).not_initOnly
  · rw [State.afterOps_append]
    exact (attachOps_directionsOk hd hwf hnew).afterOps_plain (immediateOps_plain imm)

end

/-! ### The queue of `DETACH` (R110) -/

theorem detachSlotOps_of_some {i : Nat} {c : Slot} (h : s.ch[i]? = some c) :
    detachSlotOps s i = [.writePinLevel c.pin s.cfg.idleLevel, .setPinMode c.pin .input, .setPin i 0xFF#8] := by
  simp [detachSlotOps, h]

/-- The table after detaching the slots of `l`. -/
theorem detachSlotOps_ch (l : List Nat) (hl : ∀ i ∈ l, ∃ c, s.ch[i]? = some c) :
    (t.afterOps (l.flatMap (detachSlotOps s))).ch = l.foldl (fun ch i => ch.modify i fun c => { c with pin := 0xFF#8 }) t.ch := by
  induction l generalizing t with
  | nil => rfl
  | cons i l ih =>
    obtain ⟨⟨c, hc⟩, hl⟩ := List.forall_mem_cons.1 hl
    rw [List.flatMap_cons, State.afterOps_append, ih hl, detachSlotOps_of_some hc]
    simp [MicroOp.apply]

/-- Detaching the slots of `l` moves no direction but those of their own pins. -/
theorem detachSlotOps_modeAt (l : List Nat) {p : Byte} (hl : ∀ i ∈ l, ∃ c, s.ch[i]? = some c ∧ c.pin ≠ p) :
    (t.afterOps (l.flatMap (detachSlotOps s))).modeAt p = t.modeAt p := by
  induction l generalizing t with
  | nil => rfl
  | cons i l ih =>
    obtain ⟨⟨c, hc, hne⟩, hl⟩ := List.forall_mem_cons.1 hl
    rw [List.flatMap_cons, State.afterOps_append, ih hl, detachSlotOps_of_some hc]
    simp only [State.afterOps_cons, State.afterOps_nil, MicroOp.apply, State.modeAt, State.modifySlot_mode, State.setMode_mode,
      State.writePinLevel_mode]
    exact PinModes.read_write_other _ fun e => hne (BitVec.eq_of_toNat_eq e.symm)

theorem detachSlotOps_spares (i : Nat) : ∀ op ∈ detachSlotOps s i, op.SparesOwners t := by
  unfold detachSlotOps
  split <;> simp [MicroOp.SparesOwners]

theorem detachSlotOps_defined {i : Nat} (h : s.detachable i = true) : ∀ op ∈ detachSlotOps s i, op.defined s.cfg = true := by
  unfold State.detachable at h
  unfold detachSlotOps
  split
  next => simp
  next c hc =>
    simp only [hc, Option.all_some, Bool.and_eq_true] at h
    simp [MicroOp.defined, h.2]

theorem Slot.matchesPin_congr {c d : Slot} (p : Byte) (h : c.pin = d.pin) : c.matchesPin p = d.matchesPin p := by
  simp [Slot.matchesPin, Slot.occupied, h]

/-- A slot still occupied after `DETACH` was not matched, so no matched slot had its pin, and its direction has not moved. -/
theorem detach_directionsOk (hd : s.DirectionsOk) (p : Byte) :
    (s.afterOps ((s.matchPin p).flatMap (detachSlotOps s))).DirectionsOk := by
  have hmatched : ∀ i ∈ s.matchPin p, ∃ c, s.ch[i]? = some c ∧ c.matchesPin p = true := fun i hi => (mem_matchPin s).1 hi
  intro d hmem hocc
  rw [detachSlotOps_ch _ fun i hi => (hmatched i hi).imp fun _ h => h.1, modify_matched] at hmem
  obtain ⟨c, hc, rfl⟩ := List.mem_map.1 hmem
  split_ifs at hocc ⊢ with hm
  · simp [Slot.occupied] at hocc
  · rw [detachSlotOps_modeAt _ fun i hi => ?_]
    · exact hd c hc hocc
    · obtain ⟨e, he, hme⟩ := hmatched i hi
      exact ⟨e, he, fun hpin => hm (Slot.matchesPin_congr p hpin ▸ hme)⟩

theorem detach_queueOk (ht : s.TableOk) (hd : s.DirectionsOk) {p : Byte} (hok : (s.matchPin p).all s.detachable = true) :
    s.QueueOk ((s.matchPin p).flatMap (detachSlotOps s)) := by
  have hspares : ∀ op ∈ (s.matchPin p).flatMap (detachSlotOps s), op.SparesOwners s := by
    intro op ho
    obtain ⟨i, -, hi⟩ := List.mem_flatMap.1 ho
    exact detachSlotOps_spares i op hi
  refine ⟨fun op ho => ?_, fun k _ => ⟨ht.along hspares k, fun op ho => ?_⟩, fun _ => detach_directionsOk hd p⟩
  · obtain ⟨i, hi, hop⟩ := List.mem_flatMap.1 ho
    exact detachSlotOps_defined (List.all_eq_true.1 hok i hi) op hop
  · exact (hspares op (List.mem_of_mem_drop ho)).not_initOnly

/-! ### The queue of `INIT` (R102) -/

theorem afterOps_tmrRun {ops : List MicroOp} (h : ∀ op ∈ ops, ∀ n, op ≠ .configureTick n) : (s.afterOps ops).tmrRun = s.tmrRun := by
  induction ops generalizing s with
  | nil => rfl
  | cons op ops ih =>
    obtain ⟨hop, hops⟩ := List.forall_mem_cons.1 h
    rw [State.afterOps_cons, ih hops]
    by_contra hne
    obtain ⟨-, n, hn⟩ := op.apply_tmrRun_writer hne
    exact hop n hn

/-- A queue that starts the timer last, with every slot free by then: before that nothing is asked of the table. -/
theorem State.QueueOk.of_timer_last (hstop : s.tmrRun = false) {front : List MicroOp} {n : Nat}
    (hfront : ∀ op ∈ front, ∀ n, op ≠ .configureTick n) (hdef : ∀ op ∈ front, op.defined s.cfg = true)
    (hfree : ∀ c ∈ (s.afterOps front).ch, c.pin = 0xFF#8) : s.QueueOk (front ++ [.configureTick n]) := by
  have hch : (s.afterOps (front ++ [.configureTick n])).ch = (s.afterOps front).ch := by
    simp [State.afterOps_append, MicroOp.apply]
  refine ⟨?_, fun k hrun => ?_, fun _ c hc hocc => ?_⟩
  · simp only [List.forall_mem_append]
    exact ⟨hdef, by simp [MicroOp.defined]⟩
  · rcases Nat.lt_or_ge front.length k with hk | hk
    · have hlen : (front ++ [MicroOp.configureTick n]).length ≤ k := by simpa using hk
      rw [List.take_of_length_le hlen, List.drop_eq_nil_of_le hlen]
      exact ⟨.of_all_free (by rwa [hch]), by simp⟩
    · rw [List.take_append_of_le_length hk,
        afterOps_tmrRun fun op ho => hfront op (List.mem_of_mem_take ho), hstop] at hrun
      cases hrun
  · simp [Slot.occupied, hfree c (hch ▸ hc)] at hocc

/-- The eight writes of one slot leave it free. -/
theorem initSlotOps_afterOps (q : Polarity) (i : Nat) (t : State) :
    t.afterOps (initSlotOps q i) = t.modifySlot i fun _ => { Slot.powerOn with pol := q } := by
  simp only [initSlotOps, State.afterOps_cons, State.afterOps_nil, MicroOp.apply, State.modifySlot, List.modify_modify_eq]
  rfl

theorem foldl_modify_range (l : List Slot) (g : Slot → Slot) :
    (List.range l.length).foldl (fun ch i => ch.modify i g) l = l.map g := by
  have hall : ((List.range l.length).filter fun i => l[i]?.isSome) = List.range l.length :=
    List.filter_eq_self.2 fun i hi => by simp [List.getElem?_eq_getElem (List.mem_range.1 hi)]
  simpa [hall] using modify_picked l (fun _ => true) g l.length (le_refl _)

theorem initOps_front_ch (q : Polarity) :
    (s.afterOps (.setDefpol q :: (List.range s.nCh).flatMap (initSlotOps q))).ch =
      s.ch.map fun _ => { Slot.powerOn with pol := q } := by
  rw [State.afterOps_cons, afterOps_flatMap_slots _ _ _ _ (initSlotOps_afterOps q)]
  exact foldl_modify_range s.ch _

theorem initOps_queueOk (hstop : s.tmrRun = false) (q : Polarity) : s.QueueOk (initOps q s) := by
  rw [initOps, ← List.cons_append]
  refine .of_timer_last hstop ?_ ?_ fun c hc => ?_
  · simp only [List.forall_mem_cons, List.forall_mem_flatMap]
    exact ⟨by simp, fun i _ => by simp [initSlotOps]⟩
  · simp only [List.forall_mem_cons, List.forall_mem_flatMap]
    exact ⟨rfl, fun i _ => by simp [initSlotOps, MicroOp.defined]⟩
  · rw [initOps_front_ch] at hc
    obtain ⟨-, -, rfl⟩ := List.mem_map.1 hc
    rfl

/-! ### Every command queues what the invariant asks -/

/-- The paths of `SETDUTY`: on owned pins its writes are plain, and the attach claims a free slot for a pin no slot owns. -/
theorem setduty_queueOk (ht : s.TableOk) (hd : s.DirectionsOk) (hwf : PinModes.wf s.mode = true) {p v : Byte} {imm : Bool}
    {ops : List MicroOp} (h : s.Queues (.setduty p v imm) ops) : s.QueueOk ops := by
  obtain ⟨-, ⟨-, rfl⟩ | ⟨-, j, js, -, rfl⟩ | ⟨hp, hnone, hattach⟩⟩ := queues_setduty_iff.1 h
  · refine .of_plain ht hd ?_
    simp only [List.forall_mem_append, List.forall_mem_map]
    exact ⟨fun _ _ => rfl, immediateOps_plain imm⟩
  · exact .of_plain ht hd (List.forall_mem_cons.2 ⟨rfl, immediateOps_plain imm⟩)
  · obtain ⟨-, rfl⟩ | ⟨f, a, m, hf, hres, rfl⟩ := attach_eq_iff.1 hattach
    · exact .of_plain ht hd (by simp)
    · have hnew := (matchPin_eq_nil_iff ((toInt_nonneg_iff p).2 hp)).1 hnone
      refine attachOps_queueOk imm ht hd hwf hres hnew fun c hc => ?_
      have := List.find?_some hf
      simpa [hc] using this

theorem queues_queueOk (hidle : s.tmrRun = true → s.TableOk ∧ s.DirectionsOk) (hwf : PinModes.wf s.mode = true) {i : Instr}
    (hi : i ≠ .tick) {ops : List MicroOp} (h : s.Queues i ops) : s.QueueOk ops := by
  cases i with
  | tick => exact absurd rfl hi
  | init a =>
    obtain ⟨hstop, rfl⟩ := queues_init_iff.1 h
    exact initOps_queueOk hstop _
  | setduty p v imm =>
    obtain ⟨ht, hd⟩ := hidle (queues_setduty_iff.1 h).1
    exact setduty_queueOk ht hd hwf h
  | setpol p a =>
    obtain ⟨hrun, rfl⟩ := queues_setpol_iff.1 h
    obtain ⟨ht, hd⟩ := hidle hrun
    exact .of_plain ht hd (by simp [MicroOp.plain])
  | detach p =>
    obtain ⟨hrun, hok, rfl⟩ := queues_detach_iff.1 h
    obtain ⟨ht, hd⟩ := hidle hrun
    exact detach_queueOk ht hd hok
  | setrate p u d =>
    obtain ⟨hrun, rfl⟩ := queues_setrate_iff.1 h
    obtain ⟨ht, hd⟩ := hidle hrun
    refine .of_plain ht hd (List.forall_mem_flatMap.2 fun i _ => ?_)
    simp [MicroOp.plain]

end Sys2Proof.Machine
end

