-- ==== Sys2Proof/Proofs/Invariant.lean ====
section
/-!
PROOF. The machine's invariant (10_state.md R14, R20; 20_memory.md R46, R52; 41_host_commands.md R115; 70_reset_and_hazards.md R155): it
holds after reset, every step keeps it, and so does every run.
-/

namespace Sys2Proof.Machine

variable {s t : State}

/-! ### The clauses on the platform and its two spaces -/

/-- A port space in canonical form that lists ports of the platform only (R50). -/
def Config.OutOk (c : Config) (o : Memory) : Prop := Memory.wf o = true ∧ ∀ e ∈ o, c.isPort e.1 = true

theorem Config.OutOk.write {c : Config} {o : Memory} (h : OutOk c o) {a : PortAddr} (ha : c.isPort a = true) (v : Byte) :
    OutOk c (Memory.write o a v) := by
  refine ⟨Memory.write_wf h.1 a v, fun e he => ?_⟩
  obtain hkey | hold := sparseWrite_keys he
  · rwa [hkey]
  · exact h.2 e hold

theorem Config.OutOk.portDrive (h : OutOk s.cfg s.out) {a : PortAddr} (ha : s.cfg.isPort a = true) (m : Byte) (l : Level) :
    OutOk s.cfg (s.portDrive a m l).out := by
  cases l <;> exact h.write ha _

/-- A drive loop of `TICK` over slots that hold ports writes ports only. -/
theorem Config.OutOk.condDrive {c : Config} (P : Slot → Bool) (L : Slot → Level) {l : List Slot} {o : Memory} (h : OutOk c o)
    (hl : ∀ d ∈ l, P d = true → c.isPort d.oreg = true) : OutOk c (l.foldl (condDrive P L) o) := by
  induction l generalizing o with
  | nil => exact h
  | cons d l ih =>
    obtain ⟨hd, hl⟩ := List.forall_mem_cons.1 hl
    refine ih ?_ hl
    unfold Machine.condDrive
    split
    next hP => cases L d <;> exact h.write (hd hP) _
    next => exact h

theorem Config.OutOk.tickRoutine (h : OutOk s.cfg s.out)
    (hports : ∀ c ∈ s.ch, c.occupied = true → s.cfg.isPort c.oreg = true) : OutOk s.cfg (tickRoutine s).out := by
  have hfaded : ∀ c ∈ s.ch.map fadedIf, c.occupied = true → s.cfg.isPort c.oreg = true := by simpa using hports
  rw [tickRoutine_eq, riseOut_eq, fallOut_eq]
  split
  · refine (h.condDrive _ _ fun c hc hP => ?_).condDrive _ _ fun c hc hP => ?_
    all_goals
      simp only [Bool.and_eq_true] at hP
      exact hfaded c hc hP.1
  · refine h.condDrive _ _ fun c hc hP => ?_
    simp only [Bool.and_eq_true] at hP
    exact hports c hc hP.1

theorem Config.OutOk.foreignWrite (h : OutOk s.cfg s.out) (a : PortAddr) (v : Byte) : OutOk s.cfg (s.foreignWrite a v).out := by
  unfold State.foreignWrite
  split
  next ha => exact h.write ha _
  next => exact h

/-- A pin-mode space in canonical form that lists pins of `VALID_PINS` only (R25). -/
def Config.ModeOk (c : Config) (m : PinModes) : Prop :=
  PinModes.wf m = true ∧ ∀ e ∈ m, e.1 < 128 ∧ c.validPin (BitVec.ofNat 8 e.1) = true

theorem Config.ModeOk.write {c : Config} {m : PinModes} (h : ModeOk c m) {p : Byte} (hp : c.validPin p = true) (d : PinMode) :
    ModeOk c (PinModes.write m p.toNat d) := by
  refine ⟨PinModes.write_wf h.1 _ d, fun e he => ?_⟩
  obtain hkey | hold := sparseWrite_keys he
  · obtain ⟨r, hr⟩ := Option.isSome_iff_exists.1 hp
    have hmsb : p.msb = false := (resolve_isPort hr).2
    rw [hkey]
    exact ⟨by simpa [BitVec.msb_eq_decide] using hmsb, by simpa using hp⟩
  · exact h.2 e hold

/-- The invariant's clauses that say nothing of `HOSTQ`. -/
structure State.SpacesOk (s : State) : Prop where
  platform : s.cfg.wf = true
  slots    : 0 < s.nCh
  out      : Config.OutOk s.cfg s.out
  mode     : Config.ModeOk s.cfg s.mode

theorem State.inv_iff : s.Inv ↔ s.SpacesOk ∧ s.QueueOk s.hostq := by
  constructor
  · rintro ⟨h1, h2, h3, h4, h5, h6, h7, h8, h9⟩
    exact ⟨⟨h1, h2, ⟨h3, h4⟩, h5, h6⟩, h7, h8, h9⟩
  · rintro ⟨⟨h1, h2, ⟨h3, h4⟩, h5, h6⟩, h7, h8, h9⟩
    exact ⟨h1, h2, h3, h4, h5, h6, h7, h8, h9⟩

/-- A state with the same host's view and a good port space: what ticks, foreign writes and taking an input lead to. -/
theorem State.Inv.of_hostView_eq (h : s.Inv) (e : t.hostView = s.hostView) (hout : Config.OutOk s.cfg t.out) : t.Inv := by
  obtain ⟨hspaces, hqueue⟩ := State.inv_iff.1 h
  obtain ⟨hch, -, hmode, -, hhostq, hcfg⟩ := State.hostView_eq_iff.1 e
  have hn : t.nCh = s.nCh := by simpa [State.nCh] using congrArg List.length hch
  refine State.inv_iff.2 ⟨⟨?_, ?_, ?_, ?_⟩, ?_⟩
  · exact hcfg ▸ hspaces.platform
  · exact hn ▸ hspaces.slots
  · exact hcfg ▸ hout
  · exact hcfg ▸ hmode ▸ hspaces.mode
  · exact hhostq ▸ hqueue.of_hostView_eq e

theorem State.QueueOk.setHostq {ops : List MicroOp} (h : s.QueueOk ops) (q : List MicroOp) : (s.setHostq q).QueueOk ops where
  queued := h.queued
  ahead k := by
    rw [State.setHostq_afterOps]
    intro hrun
    obtain ⟨⟨hp, hu, hr⟩, hops⟩ := h.ahead k hrun
    exact ⟨⟨hp, hu, hr⟩, hops⟩
  directions := by
    rw [State.setHostq_afterOps]
    exact h.directions

/-- Good spaces and a queue that is good from here make the invariant, whatever stood in `HOSTQ`. -/
theorem State.inv_setHostq (hs : s.SpacesOk) {ops : List MicroOp} (hq : s.QueueOk ops) : (s.setHostq ops).Inv :=
  State.inv_iff.2 ⟨⟨hs.platform, hs.slots, hs.out, hs.mode⟩, hq.setHostq ops⟩

/-! ### The steps of the host -/

theorem MicroOp.apply_outOk (h : Config.OutOk s.cfg s.out) (op : MicroOp) : Config.OutOk s.cfg (op.apply s).out := by
  by_cases hout : (op.apply s).out = s.out
  · rwa [hout]
  · obtain ⟨p, l, rfl⟩ := op.apply_out_writer hout
    simp only [MicroOp.apply, State.writePinLevel]
    split
    next a m hr => exact h.portDrive (resolve_isPort hr).1 m l
    next => exact h

theorem MicroOp.apply_modeOk (h : Config.ModeOk s.cfg s.mode) {op : MicroOp} (hdef : op.defined s.cfg = true) :
    Config.ModeOk s.cfg (op.apply s).mode := by
  by_cases hmode : (op.apply s).mode = s.mode
  · rwa [hmode]
  · obtain ⟨p, d, rfl, hwrite⟩ := op.apply_mode_writer hmode
    rw [hwrite]
    exact h.write hdef d

/-- A queued micro-operation keeps the spaces; the look-ahead of the invariant already speaks of the state it leads to. -/
theorem State.Inv.micro (h : s.Inv) {op : MicroOp} {ops : List MicroOp} (hq : s.hostq = op :: ops) :
    (op.apply (s.setHostq ops)).Inv := by
  obtain ⟨hspaces, hqueue⟩ := State.inv_iff.1 h
  rw [hq] at hqueue
  rw [MicroOp.apply_setHostq]
  have hdef : op.defined s.cfg = true := hqueue.queued op (by simp)
  refine State.inv_setHostq ⟨?_, ?_, ?_, ?_⟩ hqueue.tail <;> simp only [MicroOp.apply_cfg, MicroOp.apply_nCh]
  · exact hspaces.platform
  · exact hspaces.slots
  · exact MicroOp.apply_outOk hspaces.out op
  · exact MicroOp.apply_modeOk hspaces.mode hdef

/-- The start of a command, with none in progress. -/
theorem State.Inv.start (h : s.Inv) (hq : s.hostq = []) {i : Instr} (hi : i ≠ .tick) (he : exec i s = .next t) : t.Inv := by
  obtain ⟨hspaces, hqueue⟩ := State.inv_iff.1 h
  rw [hq] at hqueue
  obtain ⟨ops, hops, rfl⟩ := queues_of_exec_next hi he
  rw [hq, List.nil_append]
  exact State.inv_setHostq hspaces (queues_queueOk hqueue.idle hspaces.mode.1 hi hops)

/-! ### The invariant over steps and runs -/

theorem State.Inv.tick (h : s.Inv) (he : exec .tick s = .next t) : t.Inv := by
  have hout := (State.inv_iff.1 h).1.out
  refine h.of_hostView_eq (exec_tick_hostView he) ?_
  rw [exec_tick] at he
  obtain ⟨-, hs⟩ | ⟨-, hports, hs⟩ | ⟨-, -, hs⟩ := execTick_cases s <;> rw [hs] at he <;> cases he
  · exact hout
  · exact hout.tickRoutine ((portsOk_iff s).1 hports)

/-- Settles O46: ticks and foreign writes keep the host's view, on which the look-ahead depends; a micro-operation moves along the queue the
invariant looks ahead on; and a command starts with a queue that meets it. -/
theorem invariantIsKeptByEveryStep : Obligations.InvariantIsKeptByEveryStep := by
  intro s t hinv h
  have hout := (State.inv_iff.1 hinv).1.out
  have hturn : ∀ {turn s0}, s.takeTurn = (turn, s0) → s0.Inv := by
    intro turn s0 hT
    obtain ⟨ts, rfl⟩ := takeTurn_eq s hT
    exact hinv.of_hostView_eq rfl hout
  obtain ⟨s0, hT, ht⟩ | ⟨s0, a, v, hT, rfl⟩ | ⟨s0, op, ops, hT, hq, -, rfl⟩ | ⟨s0, w, ws, i, hT, hq, -, hi, he⟩ |
    ⟨s0, hT, -, rfl | ⟨w, ws, -, rfl⟩⟩ := step_cases s h <;>
    have h0 := hturn hT <;> have hout0 := (State.inv_iff.1 h0).1.out
  case inl => exact h0.tick ht
  case inr.inl => exact h0.of_hostView_eq (by simp) (hout0.foreignWrite a v)
  case inr.inr.inl => exact h0.micro hq
  case inr.inr.inr.inl =>
    have h1 : (s0.setProgram ws).Inv := h0.of_hostView_eq rfl hout0
    exact h1.start hq hi he
  case inr.inr.inr.inr.inl => exact h0
  case inr.inr.inr.inr.inr => exact h0.of_hostView_eq rfl hout0

theorem core_run_succ_next {M : Host.Core} {k : Nat} {s t : M.State} (h : M.run (k + 1) s = .next t) :
    ∃ s', M.step s = .next s' ∧ M.run k s' = .next t := by
  rw [Host.Core.run] at h
  split at h
  next s' hs => exact ⟨s', hs, h⟩
  all_goals cases h

/-- The invariant along a run of any length. -/
theorem State.Inv.run (h : s.Inv) {k : Nat} (hr : Host.Core.run Sys2Proof.core k s = .next t) : t.Inv := by
  induction k generalizing s with
  | zero =>
    cases hr
    exact h
  | succ k ih =>
    obtain ⟨s', hs, hr⟩ := core_run_succ_next hr
    exact ih (invariantIsKeptByEveryStep s s' h hs) hr

/-- Settles O49: the invariant at the end of the run, read before any of its queued micro-operations. -/
theorem ownershipHoldsAlongEveryRun : Obligations.OwnershipHoldsAlongEveryRun := by
  intro s t k hinv hr hrun
  have ht := hinv.run hr
  refine ⟨(ht.ahead 0 hrun).1, fun hq => ?_⟩
  have hdir := ht.directions
  rw [hq] at hdir
  exact hdir hrun

/-! ### Power-on and reset -/

/-- Settles O43: each field is read off the power-on state; the table is `n` copies of one slot. -/
theorem powerOnLeavesTimerStopped : Obligations.PowerOnLeavesTimerStopped := by
  intro c n
  have hn : (State.powerOn c n).nCh = n := List.length_replicate
  exact ⟨rfl, rfl, rfl, hn⟩

/-- The sample platform meets R5: its pins are 0 to 127, each once, and its addresses are below 0x30. -/
theorem Config.sample_wf : Config.sample.wf = true := by
  have hpin : ∀ p < 128, (BitVec.ofNat 8 p).msb = false := by
    intro p hp
    simp only [BitVec.msb_eq_decide, BitVec.toNat_ofNat, decide_eq_false_iff_not]
    omega
  have hnodup : ((List.range 128).map (BitVec.ofNat 8)).Nodup := by
    refine List.nodup_range.map_on fun p hp q hq e => ?_
    have hval := congrArg BitVec.toNat e
    simp only [BitVec.toNat_ofNat, List.mem_range] at hval hp hq
    omega
  simp only [Config.wf, Bool.and_eq_true, List.all_eq_true, decide_eq_true_eq]
  refine ⟨fun e he => ?_, ?_⟩
  · simp only [Config.sample, Config.samplePins] at he ⊢
    obtain ⟨p, hp, rfl⟩ := List.mem_map.1 he
    have hlt := List.mem_range.1 hp
    exact ⟨by simp [hpin p hlt], by show 0x20 + p / 8 < 2 ^ 8; omega⟩
  · simpa [Config.sample, Config.samplePins, Function.comp_def] using hnodup

/-- Settles O44: with the timer stopped and `HOSTQ` empty only the platform, the number of slots and the empty spaces count. -/
theorem resetMeetsTheInvariant : Obligations.ResetMeetsTheInvariant := by
  have hspaces : State.reset.SpacesOk :=
    ⟨Config.sample_wf, by decide, ⟨rfl, by simp [State.reset, State.powerOn]⟩, ⟨rfl, by simp [State.reset, State.powerOn]⟩⟩
  have hqueue : State.reset.QueueOk [] := by
    refine ⟨by simp, fun k hrun => ?_, fun hrun => by cases hrun⟩
    rw [List.take_nil] at hrun
    cases hrun
  exact State.inv_iff.2 ⟨hspaces, hqueue⟩

end Sys2Proof.Machine
end

