-- ==== Sys2Proof/Proofs/Ports.lean ====
section
/-!
PROOF. What each writer of the port space changes of it: the drives and the Pin Backend primitives (20_memory.md R43 to R45),
`TICK` (40_tick.md R88) and a foreign write (R56); and that every step keeps the canonical form of the two sparse spaces.
-/

namespace Sys2Proof.Machine

variable (s : State)

/-! ### The drives of a slot (R43) -/

theorem State.driveOn_eq {s : State} {i : Nat} {c : Slot} (hc : s.ch[i]? = some c) :
    s.driveOn i = s.portDrive c.oreg c.mask (Polarity.onLevel c.pol) := by
  simp only [State.driveOn, hc]

theorem State.driveOff_eq {s : State} {i : Nat} {c : Slot} (hc : s.ch[i]? = some c) :
    s.driveOff i = s.portDrive c.oreg c.mask (Polarity.offLevel c.pol) := by
  simp only [State.driveOff, hc]

theorem State.portDrive_out_only (a : PortAddr) (m : Byte) (l : Level) :
    s.portDrive a m l = { s with out := (s.portDrive a m l).out } := by
  cases l <;> rfl

/-- Settles O33: each drive is a port drive of the slot's bits to the level its polarity gives. -/
theorem drivesChangeTheMaskedBitsOnly : Obligations.DrivesChangeTheMaskedBitsOnly := by
  intro s i c hwf hc
  rw [State.driveOn_eq hc, State.driveOff_eq hc]
  refine ⟨?_, ?_, fun b hb => ⟨s.portDrive_outAt_other _ _ hb, s.portDrive_outAt_other _ _ hb⟩,
    s.portDrive_out_only _ _ _, s.portDrive_out_only _ _ _⟩
  · rw [s.portDrive_outAt_same hwf]
    cases c.pol <;> rfl
  · rw [s.portDrive_outAt_same hwf]
    cases c.pol <;> rfl

/-! ### The Pin Backend primitives (R44, R45) -/

section
variable {s} {p : Byte} {a : PortAddr} {m : Byte}

theorem runMicro_of_defined (s : State) {op : MicroOp} (h : op.defined s.cfg = true) :
    runMicro op s = .next (op.apply s) :=
  if_pos h

theorem validPin_of_resolve {c : Config} (h : c.resolve p = some (a, m)) : c.validPin p = true := by
  simp [Config.validPin, h]

theorem runMicro_writePinLevel (h : s.cfg.resolve p = some (a, m)) (l : Level) :
    runMicro (.writePinLevel p l) s = .next (s.portDrive a m l) := by
  rw [runMicro_of_defined s (op := .writePinLevel p l) (validPin_of_resolve h), MicroOp.apply, State.writePinLevel, h]

theorem runMicro_setPinMode (h : s.cfg.resolve p = some (a, m)) (d : PinMode) :
    runMicro (.setPinMode p d) s = .next (s.setMode p d) :=
  runMicro_of_defined s (validPin_of_resolve h)

end

theorem State.setMode_modeAt_same (h : PinModes.wf s.mode = true) (p : Byte) (d : PinMode) : (s.setMode p d).modeAt p = d :=
  PinModes.read_write_same h p.toNat d

theorem State.setMode_modeAt_other {p q : Byte} (d : PinMode) (h : q ≠ p) : (s.setMode p d).modeAt q = s.modeAt q :=
  PinModes.read_write_other d (mt BitVec.eq_of_toNat_eq h)

/-- Settles O34: on a resolvable pin the two micro-operations are one port drive and one write of `MODE`. -/
theorem pinBackendPrimitivesTouchOnePin : Obligations.PinBackendPrimitivesTouchOnePin := by
  intro s p l d a m hout hmode hp
  refine ⟨⟨_, runMicro_writePinLevel hp l, s.portDrive_out_only a m l, ?_, fun b hb => s.portDrive_outAt_other m l hb⟩,
    ⟨_, runMicro_setPinMode hp d, rfl, s.setMode_modeAt_same hmode p d, fun q hq => s.setMode_modeAt_other d hq⟩⟩
  rw [s.portDrive_outAt_same hout]
  cases l <;> rfl

/-! ### `TICK` outside the masks of the occupied slots (R42, R88) -/

/-- Bit `k` of port `a` is under the mask of no occupied slot of the table. -/
def SpareBit (l : List Slot) (a : PortAddr) (k : Nat) : Prop :=
  ∀ c ∈ l, c.occupied = true → c.oreg = a → c.mask.getLsbD k = false

section
variable {l : List Slot} {o : Memory} {a : PortAddr} {k : Nat}

theorem SpareBit.map_fadedIf (h : SpareBit l a k) : SpareBit (l.map fadedIf) a k := by
  simpa [SpareBit] using h

/-- A drive loop that picks occupied slots only keeps a spare bit. -/
theorem SpareBit.condDrive (h : SpareBit l a k) (hwf : Memory.wf o = true) (hk : k < 8) {P : Slot → Bool}
    (hP : ∀ c, P c = true → c.occupied = true) (L : Slot → Level) :
    (Memory.read (l.foldl (condDrive P L) o) a).getLsbD k = (Memory.read o a).getLsbD k :=
  condDrive_skip P L l hwf a k hk fun c hc hp => h c hc (hP c hp)

theorem SpareBit.rise (h : SpareBit l a k) (hwf : Memory.wf o = true) (hk : k < 8) :
    (Memory.read (l.foldl riseOut o) a).getLsbD k = (Memory.read o a).getLsbD k := by
  rw [riseOut_eq]
  exact h.condDrive hwf hk (fun c hc => (Bool.and_eq_true_iff.1 hc).1) _

theorem SpareBit.fall (h : SpareBit l a k) (hwf : Memory.wf o = true) (hk : k < 8) (n : Byte) :
    (Memory.read (l.foldl (fallOut n) o) a).getLsbD k = (Memory.read o a).getLsbD k := by
  rw [fallOut_eq]
  exact h.condDrive hwf hk (fun c hc => (Bool.and_eq_true_iff.1 hc).1) _

end

theorem foldl_riseOut_wf (l : List Slot) {o : Memory} (h : Memory.wf o = true) : Memory.wf (l.foldl riseOut o) = true := by
  rw [riseOut_eq]
  exact condDrive_wf _ _ l h

theorem foldl_fallOut_wf (l : List Slot) (n : Byte) {o : Memory} (h : Memory.wf o = true) :
    Memory.wf (l.foldl (fallOut n) o) = true := by
  rw [fallOut_eq]
  exact condDrive_wf _ _ l h

/-- The port space after a tick: the rising edges at a cycle start, then the falling edges (R85 to R87). -/
theorem tickRoutine_out :
    (tickRoutine s).out =
      if s.cnt = 255#8 then (s.ch.map fadedIf).foldl (fallOut (s.cnt + 1#8)) ((s.ch.map fadedIf).foldl riseOut s.out)
      else s.ch.foldl (fallOut (s.cnt + 1#8)) s.out := by
  rw [tickRoutine_eq]
  simp only [succ_eq_zero_iff]
  split <;> rfl

theorem SpareBit.tickRoutine {s : State} {a : PortAddr} {k : Nat} (h : SpareBit s.ch a k) (hwf : Memory.wf s.out = true)
    (hk : k < 8) : ((tickRoutine s).outAt a).getLsbD k = (s.outAt a).getLsbD k := by
  rw [State.outAt, tickRoutine_out]
  split
  · rw [h.map_fadedIf.fall (foldl_riseOut_wf _ hwf) hk, h.map_fadedIf.rise hwf hk, State.outAt]
  · rw [h.fall hwf hk, State.outAt]

/-- Settles O11: both loops of the routine drive bits of occupied slots only. -/
theorem tickKeepsBitsOutsideMasks : Obligations.TickKeepsBitsOutsideMasks := by
  intro s t a k hwf hexec hk hspare
  rw [exec_tick] at hexec
  obtain ⟨-, hs⟩ | ⟨-, -, hs⟩ | ⟨-, -, hs⟩ := execTick_cases s <;> rw [hs] at hexec <;> cases hexec
  · rfl
  · exact SpareBit.tickRoutine hspare hwf hk

/-! ### A foreign write and the bits the block owns (R56) -/

/-- A bit of an accumulator that each element of a list may add to: set at the start, or added by some element. -/
theorem foldl_getLsbD_iff {β : Type} {k : Nat} (g : Byte → β → Byte) (Adds : β → Prop)
    (hg : ∀ m x, (g m x).getLsbD k = true ↔ m.getLsbD k = true ∨ Adds x) (l : List β) (m : Byte) :
    (l.foldl g m).getLsbD k = true ↔ m.getLsbD k = true ∨ ∃ x ∈ l, Adds x := by
  induction l generalizing m with
  | nil => simp
  | cons x l ih => simp [ih, hg, or_assoc]

/-- Bit `k` of port `a` is under the mask of an occupied slot. -/
def State.SlotBit (a : PortAddr) (k : Nat) : Prop :=
  ∃ c ∈ s.ch, c.occupied = true ∧ c.oreg = a ∧ c.mask.getLsbD k = true

/-- Bit `k` of port `a` is under `RESOLVE` of a pin that a queued micro-operation attaches or detaches. -/
def State.QueuedBit (a : PortAddr) (k : Nat) : Prop :=
  ∃ op ∈ s.hostq, ∃ p m, op.pin? = some p ∧ s.cfg.resolve p = some (a, m) ∧ m.getLsbD k = true

theorem State.ownedMask_getLsbD_iff (a : PortAddr) (k : Nat) :
    (s.ownedMask a).getLsbD k = true ↔ s.SlotBit a k ∨ s.QueuedBit a k := by
  unfold State.ownedMask
  rw [foldl_getLsbD_iff _ (fun op => ∃ p m, op.pin? = some p ∧ s.cfg.resolve p = some (a, m) ∧ m.getLsbD k = true),
    foldl_getLsbD_iff _ (fun c => c.occupied = true ∧ c.oreg = a ∧ c.mask.getLsbD k = true)]
  · simp [State.SlotBit, State.QueuedBit]
  · intro m c
    by_cases h : c.occupied = true ∧ c.oreg = a <;> simp [h, ← and_assoc]
  · intro m op
    rcases op.pin? with _ | p
    · simp
    · rcases h : s.cfg.resolve p with _ | ⟨b, r⟩
      · simp [h]
      · by_cases hb : b = a <;> simp [h, hb]

theorem State.foreignWrite_out_only (a : PortAddr) (v : Byte) :
    s.foreignWrite a v = { s with out := (s.foreignWrite a v).out } := by
  unfold State.foreignWrite
  split <;> rfl

theorem State.foreignWrite_outAt_other {a b : PortAddr} (v : Byte) (h : b ≠ a) :
    (s.foreignWrite a v).outAt b = s.outAt b := by
  unfold State.foreignWrite
  split
  · exact s.setOut_outAt_other _ h
  · rfl

/-- A foreign write to an address that is no port of the platform changes nothing (R50). -/
theorem State.foreignWrite_of_not_port {a : PortAddr} (v : Byte) (h : ¬ s.cfg.isPort a = true) : s.foreignWrite a v = s :=
  if_neg h

/-- One bit of a port after a foreign write to it: as before where the block owns it, the written one elsewhere. -/
theorem State.foreignWrite_getLsbD (hwf : Memory.wf s.out = true) {a : PortAddr} (ha : s.cfg.isPort a = true) (v : Byte)
    {k : Nat} (hk : k < 8) :
    ((s.foreignWrite a v).outAt a).getLsbD k =
      if (s.ownedMask a).getLsbD k = true then (s.outAt a).getLsbD k else v.getLsbD k := by
  rw [State.foreignWrite, if_pos ha, s.setOut_outAt_same hwf]
  simp only [BitVec.getLsbD_or, BitVec.getLsbD_and, BitVec.getLsbD_not]
  cases (s.ownedMask a).getLsbD k <;> simp [hk]

/-- Settles O37: the mask a foreign write spares is, bit by bit, what the slots and `HOSTQ` own. -/
theorem foreignWritesSpareOwnedBits : Obligations.ForeignWritesSpareOwnedBits := by
  intro s a b v k hwf hk owned
  have howned : (s.ownedMask a).getLsbD k = true ↔ owned := s.ownedMask_getLsbD_iff a k
  refine ⟨s.foreignWrite_out_only a v, ?_, fun hkeep => ?_⟩
  · rintro ⟨rfl, ha, hfree⟩
    rw [s.foreignWrite_getLsbD hwf ha v hk, if_neg (mt howned.1 hfree)]
  · by_cases hb : b = a
    · subst hb
      by_cases ha : s.cfg.isPort b = true
      · have hown : owned := not_not.1 fun hfree => hkeep ⟨rfl, ha, hfree⟩
        rw [s.foreignWrite_getLsbD hwf ha v hk, if_pos (howned.2 hown)]
      · rw [s.foreignWrite_of_not_port v ha]
    · rw [s.foreignWrite_outAt_other v hb]

/-! ### The canonical form of the two spaces -/

/-- The port space and the pin-mode space are both in canonical form. -/
def State.Canonical : Prop := Memory.wf s.out = true ∧ PinModes.wf s.mode = true

section
variable {s}

theorem State.Canonical.portDrive (h : s.Canonical) (a : PortAddr) (m : Byte) (l : Level) : (s.portDrive a m l).Canonical :=
  ⟨s.portDrive_wf h.1 a m l, by simpa using h.2⟩

theorem State.Canonical.setMode (h : s.Canonical) (p : Byte) (d : PinMode) : (s.setMode p d).Canonical :=
  ⟨h.1, PinModes.write_wf h.2 _ d⟩

theorem State.Canonical.apply (h : s.Canonical) (op : MicroOp) : (op.apply s).Canonical := by
  cases op
  case writePinLevel p l =>
    rw [MicroOp.apply, State.writePinLevel]
    split
    · exact h.portDrive _ _ l
    · exact h
  case setPinMode p d => exact h.setMode p d
  all_goals exact h

theorem State.Canonical.tickRoutine (h : s.Canonical) : (tickRoutine s).Canonical := by
  refine ⟨?_, by simpa using h.2⟩
  rw [tickRoutine_out]
  split
  · exact foldl_fallOut_wf _ _ (foldl_riseOut_wf _ h.1)
  · exact foldl_fallOut_wf _ _ h.1

theorem State.Canonical.foreignWrite (h : s.Canonical) (a : PortAddr) (v : Byte) : (s.foreignWrite a v).Canonical := by
  unfold State.foreignWrite
  split
  · exact ⟨Memory.write_wf h.1 a _, h.2⟩
  · exact h

end

/-- Settles O45: every move of the block writes the two spaces through their own write operations only. -/
theorem canonicalFormIsKept : Obligations.CanonicalFormIsKept := by
  intro s t hout hmode hstep
  have h : ∀ {q p ts}, (s.withInputs q p ts).Canonical := ⟨hout, hmode⟩
  change t.Canonical
  cases step_moves s hstep with
  | tick => exact h.tickRoutine
  | micro op => exact h.apply op
  | foreign a v => exact h.foreignWrite a v
  | stay => exact h

end Sys2Proof.Machine
end

