-- ==== Sys2Proof/Proofs/Turns.lean ====
section
/-!
PROOF. What a step does on each turn, and that the host's turns run `HOSTQ` in order (20_memory.md R51; 30_encoding.md R60, R68;
41_host_commands.md R101).
-/

namespace Sys2Proof.Machine

variable {s s0 : State}

/-! ### The turn -/

theorem takeTurn_nil (h : s.schedule = []) : s.takeTurn = (.host, s) := by
  rw [State.takeTurn, h]

theorem takeTurn_cons {t : Turn} {ts : List Turn} (h : s.schedule = t :: ts) : s.takeTurn = (t, s.setSchedule ts) := by
  rw [State.takeTurn, h]

theorem step_of_takeTurn {t : Turn} (h : s.takeTurn = (t, s0)) : step s = takeInput t s0 := by
  rw [step, h]

/-! ### The turns, each by what it finds -/

theorem strobeTurn_eq (s : State) : strobeTurn s = exec .tick s := rfl

theorem hostTurn_micro {op : MicroOp} {ops : List MicroOp} (h : s.hostq = op :: ops) :
    hostTurn s = runMicro op (s.setHostq ops) := by
  rw [hostTurn, h]

theorem hostTurn_word {w : Word} {ws : List Word} (hq : s.hostq = []) (hp : s.program = w :: ws) :
    hostTurn s = acceptWord w (s.setProgram ws) := by
  rw [hostTurn, hq, hp]

theorem hostTurn_idle (hq : s.hostq = []) (hp : s.program = []) : hostTurn s = .next s := by
  rw [hostTurn, hq, hp]

theorem acceptWord_of_decode {w : Word} {i : Instr} (h : decode (.word w) = .ok i) (s : State) :
    acceptWord w s = exec i s := by
  rw [acceptWord, h]

/-- Settles O35: the turn is read off the schedule, and each turn has its own equation. -/
theorem stepRunsTheDecodedInstruction : Obligations.StepRunsTheDecodedInstruction := by
  refine ⟨fun s h => takeTurn_nil h, fun s t ts h => takeTurn_cons h, fun s s0 => ⟨?_, ?_, ?_, ?_, ?_⟩⟩
  · intro w ws i hT hq hp hi
    exact (step_of_takeTurn hT).trans ((hostTurn_word hq hp).trans (acceptWord_of_decode hi _))
  · intro op ops hT hq
    exact (step_of_takeTurn hT).trans (hostTurn_micro hq)
  · intro hT hq hp
    exact (step_of_takeTurn hT).trans (hostTurn_idle hq hp)
  · intro hT
    exact (step_of_takeTurn hT).trans (strobeTurn_eq s0)
  · intro a v hT
    exact step_of_takeTurn hT

/-! ### As many host turns as there are queued micro-operations -/

/-- The host's turn next, on the schedule or by its end, is taken off it. -/
theorem takeTurn_host (h : ∀ t ∈ s.schedule.take 1, t = Turn.host) :
    s.takeTurn = (.host, s.setSchedule (s.schedule.drop 1)) := by
  rcases hs : s.schedule with _ | ⟨t, ts⟩
  · rw [takeTurn_nil hs, List.drop_nil, ← hs]
    rfl
  · obtain rfl : t = .host := h t (by simp [hs])
    exact takeTurn_cons hs

/-- A step of the host with a micro-operation queued runs it on the state without it. -/
theorem step_host_micro {op : MicroOp} {ops : List MicroOp} (h : ∀ t ∈ s.schedule.take 1, t = Turn.host)
    (hq : s.hostq = op :: ops) :
    step s = runMicro op ((s.setSchedule (s.schedule.drop 1)).setHostq ops) := by
  rw [step_of_takeTurn (takeTurn_host h)]
  exact hostTurn_micro hq

theorem core_run_succ_of_next {M : Host.Core} {k : Nat} {s t : M.State} (h : M.step s = .next t) :
    M.run (k + 1) s = M.run k t := by
  rw [Host.Core.run, h]

theorem core_run_succ_of_fault {M : Host.Core} {k : Nat} {s : M.State} {r : M.Fault} (h : M.step s = .fault r) :
    M.run (k + 1) s = .fault r := by
  rw [Host.Core.run, h]

theorem runMicro_of_undefined (s : State) {op : MicroOp} (h : op.defined s.cfg = false) :
    runMicro op s = .fault .unresolvedPin := by
  simp [runMicro, h]

theorem runOps_cons_undefined (s : State) {op : MicroOp} (ops : List MicroOp) (h : op.defined s.cfg = false) :
    runOps (op :: ops) s = .fault .unresolvedPin := by
  rw [runOps, runMicro_of_undefined s h]

/-- A micro-operation does the same to the block whatever inputs are still to come. -/
theorem MicroOp.apply_inputs (op : MicroOp) (q q' : List MicroOp) (ts ts' : List Turn) (s : State) :
    ((op.apply ((s.setSchedule ts).setHostq q)).setHostq q').setSchedule ts' =
      op.apply ((s.setHostq q').setSchedule ts') := by
  rw [MicroOp.apply_setHostq, MicroOp.apply_setSchedule, MicroOp.apply_setSchedule, MicroOp.apply_setHostq]
  rfl

/-- A queue `q` and as many host turns, by induction on `q`: one step runs its first micro-operation, or stops by the same fault. -/
theorem run_queue (q : List MicroOp) (s : State) (hq : s.hostq = q) (hturns : ∀ t ∈ s.schedule.take q.length, t = Turn.host) :
    Host.Core.run Sys2Proof.core q.length s = runOps q ((s.setHostq []).setSchedule (s.schedule.drop q.length)) := by
  induction q generalizing s with
  | nil =>
    have hs : s.setHostq [] = s := by rw [← hq]; rfl
    exact congrArg Host.Outcome.next hs.symm
  | cons op ops ih =>
    have hfirst : ∀ t ∈ s.schedule.take 1, t = Turn.host := fun t ht =>
      hturns t (List.take_subset_take_left _ (by simp) ht)
    have hrest : ∀ t ∈ (s.schedule.drop 1).take ops.length, t = Turn.host := by
      intro t ht
      rw [List.take_drop, Nat.add_comm] at ht
      exact hturns t (List.mem_of_mem_drop ht)
    have hstep := step_host_micro hfirst hq
    cases hdef : op.defined s.cfg with
    | false =>
      have hfault := hstep.trans (runMicro_of_undefined _ hdef)
      have hops := runOps_cons_undefined ((s.setHostq []).setSchedule (s.schedule.drop (ops.length + 1))) ops hdef
      exact (core_run_succ_of_fault (M := Sys2Proof.core) hfault).trans hops.symm
    | true =>
      have hnext := hstep.trans (runMicro_of_defined _ hdef)
      have hops := runOps_cons ((s.setHostq []).setSchedule (s.schedule.drop (ops.length + 1))) ops hdef
      have hrun := ih (op.apply ((s.setSchedule (s.schedule.drop 1)).setHostq ops)) (by simp) (by simpa using hrest)
      rw [MicroOp.apply_inputs, MicroOp.apply_schedule, State.setHostq_schedule, State.setSchedule_schedule, List.drop_drop,
        Nat.add_comm] at hrun
      exact (core_run_succ_of_next (M := Sys2Proof.core) hnext).trans (hrun.trans hops.symm)

/-- Settles O36: the queue is the one the state holds. -/
theorem hostStepsRunTheQueueInOrder : Obligations.HostStepsRunTheQueueInOrder :=
  fun s hturns => run_queue s.hostq s rfl hturns

end Sys2Proof.Machine
end

