-- ==== Sys2Proof/Proofs/Encoding.lean ====
section
/-!
PROOF. The opcode map (30_encoding.md R61, R65 to R68): the decoder by `op` and `rsvd`, the round trip through the encoder, the match and
mask of each row; that a reserved word is ignored by the step, and the strobe before `INIT`.
-/

namespace Sys2Proof

/-! ### The decoder, one rule per row of the map (R65) -/

section
variable {w : Word} (hr : rsvdField w = 0#3)
include hr

theorem decode_init (ho : opField w = 0x1#4) : decode (.word w) = .ok (.init (aField w)) := by
  simp [decode, decodeWord, hr, ho]

theorem decode_setduty (ho : opField w = 0x2#4) :
    decode (.word w) = .ok (.setduty (pinField w) (aField w) (flagField w)) := by
  simp [decode, decodeWord, hr, ho]

theorem decode_setpol (ho : opField w = 0x3#4) : decode (.word w) = .ok (.setpol (pinField w) (aField w)) := by
  simp [decode, decodeWord, hr, ho]

theorem decode_detach (ho : opField w = 0x4#4) : decode (.word w) = .ok (.detach (pinField w)) := by
  simp [decode, decodeWord, hr, ho]

theorem decode_setrate (ho : opField w = 0x5#4) :
    decode (.word w) = .ok (.setrate (pinField w) (aField w) (bField w)) := by
  simp [decode, decodeWord, hr, ho]

end

/-- The `op` values the map gives a row (R65). -/
def rowOps : List (BitVec 4) := [0x1#4, 0x2#4, 0x3#4, 0x4#4, 0x5#4]

/-- A word that selects no row of the map is a reserved encoding (R67). -/
theorem decode_reserved {w : Word} (h : rsvdField w = 0#3 → opField w ∉ rowOps) : ∃ r, decode (.word w) = .error r := by
  by_cases hr : rsvdField w = 0#3
  · have hop := h hr
    simp only [rowOps, List.mem_cons, List.not_mem_nil, or_false, not_or] at hop
    obtain ⟨h1, h2, h3, h4, h5⟩ := hop
    exact ⟨.reservedOpcode, by simp [decode, decodeWord, hr, h1, h2, h3, h4, h5]⟩
  · exact ⟨.reservedBits, by simp [decode, decodeWord, hr]⟩

/-! ### The decoder on a packed word, and the round trip -/

section
variable (f : Bool) (p a b : Byte)

theorem decode_packWord_init : decode (.word (packWord 0x1#4 f p a b)) = .ok (.init a) := by
  rw [decode_init (packWord_rsvd ..) (packWord_op ..), packWord_a]

theorem decode_packWord_setduty : decode (.word (packWord 0x2#4 f p a b)) = .ok (.setduty p a f) := by
  rw [decode_setduty (packWord_rsvd ..) (packWord_op ..), packWord_pin, packWord_a, packWord_flag]

theorem decode_packWord_setpol : decode (.word (packWord 0x3#4 f p a b)) = .ok (.setpol p a) := by
  rw [decode_setpol (packWord_rsvd ..) (packWord_op ..), packWord_pin, packWord_a]

theorem decode_packWord_detach : decode (.word (packWord 0x4#4 f p a b)) = .ok (.detach p) := by
  rw [decode_detach (packWord_rsvd ..) (packWord_op ..), packWord_pin]

theorem decode_packWord_setrate : decode (.word (packWord 0x5#4 f p a b)) = .ok (.setrate p a b) := by
  rw [decode_setrate (packWord_rsvd ..) (packWord_op ..), packWord_pin, packWord_a, packWord_b]

end

/-- Settles O2: each command is packed with its own `op` and the fields the decoder reads back; the tick is the strobe. -/
theorem decodeOfEncodeIsTheInstruction : Obligations.DecodeOfEncodeIsTheInstruction := by
  intro i
  cases i with
  | init pol => exact decode_packWord_init false 0#8 pol 0#8
  | setduty pin value imm => exact decode_packWord_setduty imm pin value 0#8
  | setpol pin pol => exact decode_packWord_setpol false pin pol 0#8
  | detach pin => exact decode_packWord_detach false pin 0#8 0#8
  | setrate pin up down => exact decode_packWord_setrate false pin up down
  | tick => rfl

/-- Settles O4: each opcode's packed word decodes to the fields it uses; the encoder's fields are its definition's. -/
theorem unusedFieldsAreIgnored : Obligations.UnusedFieldsAreIgnored :=
  fun f p a b => ⟨decode_packWord_init f p a b, decode_packWord_setduty f p a b, decode_packWord_setpol f p a b,
    decode_packWord_detach f p a b, decode_packWord_setrate f p a b, rfl, rfl, rfl, rfl, rfl⟩

/-! ### Match and mask (R65) -/

theorem opField_masked (w : Word) : opField (w &&& 0xFE000000#32) = opField w := by
  have hmask : (0xFE000000#32).extractLsb' 28 4 = BitVec.allOnes 4 := by decide
  rw [opField, BitVec.extractLsb'_and, hmask, BitVec.and_allOnes, opField]

theorem rsvdField_masked (w : Word) : rsvdField (w &&& 0xFE000000#32) = rsvdField w := by
  have hmask : (0xFE000000#32).extractLsb' 25 3 = BitVec.allOnes 3 := by decide
  rw [rsvdField, BitVec.extractLsb'_and, hmask, BitVec.and_allOnes, rsvdField]

/-- The mask covers `op` and `rsvd` only. -/
theorem masked_eq_fields (w : Word) : w &&& 0xFE000000#32 = opField w ++ rsvdField w ++ 0#25 := by
  have hfields : opField w ++ rsvdField w = w.extractLsb' 25 7 :=
    BitVec.extractLsb'_append_extractLsb'_eq_extractLsb' rfl
  have hmask : ∀ k < 32, (0xFE000000#32).getLsbD k = decide (25 ≤ k) := by decide
  rw [hfields]
  apply BitVec.eq_of_getLsbD_eq
  intro k hk
  rw [BitVec.getLsbD_and, hmask k hk, BitVec.getLsbD_append, BitVec.getLsbD_extractLsb']
  by_cases h : k < 25
  · simp [h, Nat.not_le.2 h]
  · have hlow : 25 ≤ k := Nat.not_lt.1 h
    have hhigh : k - 25 < 7 := by omega
    simp [h, hlow, hhigh]

/-- A word selects the row of `op` when its `op` field is the row's and its `rsvd` field is 0. -/
theorem selects_row_iff (w : Word) (op : BitVec 4) :
    w &&& 0xFE000000#32 = op ++ 0#3 ++ 0#25 ↔ opField w = op ∧ rsvdField w = 0#3 := by
  constructor
  · intro h
    have hmatch : ∀ op : BitVec 4, opField (op ++ 0#3 ++ 0#25) = op ∧ rsvdField (op ++ 0#3 ++ 0#25) = 0#3 := by decide
    rw [← opField_masked w, ← rsvdField_masked w, h]
    exact hmatch op
  · rintro ⟨ho, hr⟩
    rw [masked_eq_fields, ho, hr]

theorem pinField_eq (w : Word) : pinField w = (w >>> 16).setWidth 8 := BitVec.setWidth_ushiftRight_eq_extractLsb.symm

theorem aField_eq (w : Word) : aField w = (w >>> 8).setWidth 8 := BitVec.setWidth_ushiftRight_eq_extractLsb.symm

theorem bField_eq (w : Word) : bField w = w.setWidth 8 := (BitVec.setWidth_eq_extractLsb' (by decide)).symm

theorem flagField_eq (w : Word) : flagField w = decide (w &&& 0x01000000#32 ≠ 0#32) := by
  have hbit : (0x01000000#32) = BitVec.twoPow 32 24 := by decide
  rw [hbit, BitVec.and_twoPow, flagField]
  cases w.getLsbD 24 <;> decide

/-- Settles O3: each clause is the decoder's rule for the fields that the match fixes. -/
theorem opcodeMapSelectsByMatchAndMask : Obligations.OpcodeMapSelectsByMatchAndMask := by
  intro w sel pin a b f
  have hpin : pinField w = pin := pinField_eq w
  have ha : aField w = a := aField_eq w
  have hb : bField w = b := bField_eq w
  have hf : flagField w = f := flagField_eq w
  rw [← hpin, ← ha, ← hb, ← hf]
  have hrow (op) := selects_row_iff w op
  refine ⟨fun h => ?_, fun h => ?_, fun h => ?_, fun h => ?_, fun h => ?_, fun h1 h2 h3 h4 h5 => ?_⟩
  · obtain ⟨ho, hr⟩ := (hrow 0x1#4).1 h
    exact decode_init hr ho
  · obtain ⟨ho, hr⟩ := (hrow 0x2#4).1 h
    exact decode_setduty hr ho
  · obtain ⟨ho, hr⟩ := (hrow 0x3#4).1 h
    exact decode_setpol hr ho
  · obtain ⟨ho, hr⟩ := (hrow 0x4#4).1 h
    exact decode_detach hr ho
  · obtain ⟨ho, hr⟩ := (hrow 0x5#4).1 h
    exact decode_setrate hr ho
  · refine decode_reserved fun hr hop => ?_
    have hsel := (hrow (opField w)).2 ⟨rfl, hr⟩
    simp only [rowOps, List.mem_cons, List.not_mem_nil, or_false] at hop
    obtain ho | ho | ho | ho | ho := hop <;> rw [ho] at hsel
    exacts [h1 hsel, h2 hsel, h3 hsel, h4 hsel, h5 hsel]

/-! ### Reserved words (R67) -/

theorem opField_toNat (w : Word) : (opField w).toNat = (w >>> 28).toNat := by
  have hlt := (w >>> 28).isLt
  rw [opField, BitVec.extractLsb'_toNat, BitVec.toNat_ushiftRight]
  omega

theorem rsvdField_toNat (w : Word) : (rsvdField w).toNat = (w >>> 25 &&& 7#32).toNat := by
  rw [rsvdField, BitVec.extractLsb'_toNat, BitVec.toNat_and, BitVec.toNat_ushiftRight]
  exact (Nat.and_two_pow_sub_one_eq_mod _ 3).symm

/-- An `op` of 0x0 or 0x6..0xF has no row. -/
theorem not_mem_rowOps : ∀ {op : BitVec 4}, op.toNat = 0 ∨ 6 ≤ op.toNat → op ∉ rowOps := by
  decide

namespace Machine

theorem acceptWord_of_reject {w : Word} {r : Reject} (h : decode (.word w) = .error r) (s : State) :
    acceptWord w s = .next s := by
  rw [acceptWord, h]

/-- Settles O5: the word decodes to no instruction, so the host's turn only takes it off the command port. -/
theorem reservedWordChangesNothing : Obligations.ReservedWordChangesNothing := by
  intro s s0 w ws hres hT hq hp
  have hnorow : rsvdField w = 0#3 → opField w ∉ rowOps := by
    intro hr
    apply not_mem_rowOps
    rw [opField_toNat]
    obtain h0 | h6 | hbits := hres
    · exact .inl (by rw [h0]; rfl)
    · exact .inr h6
    · have hzero : (w >>> 25 &&& 7#32).toNat = 0 := by rw [← rsvdField_toNat, hr]; rfl
      exact absurd (BitVec.eq_of_toNat_eq hzero) hbits
  obtain ⟨r, hdec⟩ := decode_reserved hnorow
  calc step s = hostTurn s0 := step_of_takeTurn hT
    _ = acceptWord w (s0.setProgram ws) := hostTurn_word hq hp
    _ = .next (s0.setProgram ws) := acceptWord_of_reject hdec _

/-! ### The strobe before `INIT` (R60, R136) -/

/-- Settles O13: with the timer stopped the first case of `TICK` is the only one. -/
theorem tickIsNotEnabledBeforeInit : Obligations.TickIsNotEnabledBeforeInit := by
  intro s hstop
  rw [exec_tick]
  obtain ⟨-, hs⟩ | ⟨hrun, -⟩ | ⟨hrun, -⟩ := execTick_cases s
  case inl => exact hs
  all_goals
    rw [hstop] at hrun
    cases hrun

end Machine

end Sys2Proof
end

