-- ==== Sys2Proof/Proofs/Assembler.lean ====
section
/-!
PROOF. The assembler's lines (30_encoding.md R70 to R73; 41_host_commands.md R112, R113): the example words, and the two
pseudo-commands.
-/

namespace Sys2Proof

/-! ### The example words (R73) -/

/-- A well-formed line for one command assembles to that command's word, which decodes to the command. -/
theorem assemble_decode_of_expand {c : Config} {l : AsmLine} {i : Instr} {w : Word} (hwf : l.wellFormed = true)
    (hexp : l.expand c = [i]) (henc : encode i = .word w) :
    assemble c l = some [.word w] ∧ decode (.word w) = .ok i := by
  constructor
  · rw [assemble, if_pos hwf, hexp, List.map_singleton, henc]
  · rw [← henc]
    exact decodeOfEncodeIsTheInstruction i

/-- Settles O1: every row of the table is one command's encoding and its round trip. -/
theorem exampleWordsAssembleAndDecode : Obligations.ExampleWordsAssembleAndDecode := by
  intro c
  have row {l : AsmLine} {i : Instr} {w : Word} (hwf : l.wellFormed = true) (hexp : l.expand c = [i])
      (henc : encode i = .word w) := assemble_decode_of_expand hwf hexp henc
  obtain ⟨hpol, hpolDec⟩ := row (l := .setpol 5 2) (w := 0x30050200#32) rfl rfl rfl
  obtain ⟨hduty, hdutyDec⟩ := row (l := .setduty 5 127 false) (w := 0x20057F00#32) rfl rfl rfl
  obtain ⟨hpct, -⟩ := row (l := .setdutypct 5 50 false) (w := 0x20057F00#32) rfl rfl rfl
  exact ⟨row rfl rfl rfl, row rfl rfl rfl, row rfl rfl rfl, row rfl rfl rfl, row rfl rfl rfl, row rfl rfl rfl,
    ⟨hpol, hpolDec, rfl⟩, row rfl rfl rfl, row rfl rfl rfl, row rfl rfl rfl, row rfl rfl rfl, ⟨hpct, hduty, hdutyDec⟩⟩

/-! ### `SETDUTYPCT` (R71, R112) -/

theorem percentToDuty_le {pct : Nat} (h : pct ≤ 100) : percentToDuty pct ≤ 255 := by
  unfold percentToDuty
  omega

/-- Both lines stand for the same command; up to 100 percent the duty is in range, so both are well formed for the same pins. -/
theorem assemble_setdutypct (c : Config) (p : Int) {pct : Nat} (h : pct ≤ 100) (imm : Bool) :
    assemble c (.setdutypct p pct imm) = assemble c (.setduty p (percentToDuty pct) imm) := by
  have hwf : (AsmLine.setdutypct p pct imm).wellFormed = (AsmLine.setduty p (percentToDuty pct) imm).wellFormed := by
    simp [AsmLine.wellFormed, byteInRange, h, percentToDuty_le h]
  rw [assemble, assemble, hwf]
  rfl

theorem assemble_setdutypct_above (c : Config) (p : Int) {pct : Nat} (h : 100 < pct) (imm : Bool) :
    assemble c (.setdutypct p pct imm) = none := by
  have hwf : ¬ (AsmLine.setdutypct p pct imm).wellFormed = true := by
    simp [AsmLine.wellFormed, h]
  rw [assemble, if_neg hwf]

/-- Settles O6: the two sides of 100 percent, and the table by evaluation. -/
theorem percentIsTruncatedIntoDuty : Obligations.PercentIsTruncatedIntoDuty :=
  ⟨fun c p _ imm => ⟨fun h => ⟨assemble_setdutypct c p h imm, percentToDuty_le h⟩,
    fun h => assemble_setdutypct_above c p h imm⟩, by decide⟩

/-! ### `SETFADETIME` (R72, R113) -/

section
variable (c : Config)

theorem fadeRate_zero : fadeRate c 0 = 0#8 := rfl

variable {c} {ms : Nat}

theorem fadeRate_of_fits (hms : 0 < ms) (h : 255 * c.fadeTerm / ms ≤ 255) :
    fadeRate c ms = BitVec.ofNat 8 (255 * c.fadeTerm / ms) := by
  rw [fadeRate, if_neg hms.ne']
  exact if_pos h

theorem fadeRate_of_overflow (hms : 0 < ms) (h : 255 < 255 * c.fadeTerm / ms) :
    fadeRate c ms = Config.narrow8 (255 * c.fadeTerm / ms) := by
  rw [fadeRate, if_neg hms.ne']
  exact if_neg h.not_ge

/-- A time longer than the dividend truncates the rate to 0. -/
theorem fadeRate_of_long (h : 255 * c.fadeTerm < ms) : fadeRate c ms = 0#8 := by
  have hq : 255 * c.fadeTerm / ms = 0 := Nat.div_eq_of_lt h
  rw [fadeRate_of_fits (Nat.zero_lt_of_lt h) (by simp [hq]), hq]

end

theorem assemble_setfadetime (c : Config) {p : Int} (up down : Nat) (hp : pinInRange p = true) :
    assemble c (.setfadetime p up down) =
      some [encode (.setrate (BitVec.ofInt 8 p) (fadeRate c up) (fadeRate c down))] :=
  if_pos hp

/-- Settles O7: the line is one `SETRATE`, and the clauses are the branches of the rate. -/
theorem fadeTimeBecomesRate : Obligations.FadeTimeBecomesRate := by
  intro c p up down hp
  refine ⟨assemble_setfadetime c up down hp, fun ms => ⟨?_, fun hms h => ?_, fadeRate_of_overflow, fadeRate_of_long⟩⟩
  · rintro rfl
    exact fadeRate_zero c
  · rw [fadeRate_of_fits hms h, BitVec.toNat_ofNat, Nat.mod_eq_of_lt (Nat.lt_succ_of_le h)]

end Sys2Proof
end

