-- ==== Sys2Proof/Proofs/Fade.lean ====
section
/-!
PROOF. `FADE` in natural numbers, and what it makes of `current` over a run of ticks (40_tick.md R83, R92) and with a tick inside
`SETRATE` (41_host_commands.md R111).
-/

namespace Sys2Proof.Machine

/-! ### `FADE` by the direction of travel (R83) -/

theorem ofInt_toNat_of_eq {x : Int} {n : Nat} (hx : x = n) (hn : n < 256) : (BitVec.ofInt 8 x).toNat = n := by
  rw [hx, BitVec.ofInt_natCast, BitVec.toNat_ofNat]
  exact Nat.mod_eq_of_lt hn

section
variable {c t up dn : Byte}

theorem fade_rising (hct : c.toNat < t.toNat) (hup : 0 < up.toNat) :
    (fade c t up dn).toNat = min (c.toNat + up.toNat) t.toNat := by
  have ht := t.isLt
  simp only [fade]
  rw [if_pos (by omega)]
  exact ofInt_toNat_of_eq (by omega) (by omega)

theorem fade_falling (hct : t.toNat < c.toNat) (hdn : 0 < dn.toNat) :
    (fade c t up dn).toNat = max (c.toNat - dn.toNat) t.toNat := by
  have hc := c.isLt
  simp only [fade]
  rw [if_neg (by omega), if_pos (by omega)]
  exact ofInt_toNat_of_eq (by omega) (by omega)

theorem fade_jump (hup : ¬ (c.toNat < t.toNat ∧ 0 < up.toNat)) (hdn : ¬ (t.toNat < c.toNat ∧ 0 < dn.toNat)) :
    fade c t up dn = t := by
  simp only [fade]
  rw [if_neg (by omega), if_neg (by omega)]

end

@[simp] theorem fade_at_target (t up dn : Byte) : fade t t up dn = t := fade_jump (by omega) (by omega)

/-- Settles O8: the three branches of `FADE`, each with its bound. -/
theorem fadeStepsTowardTargetClamped : Obligations.FadeStepsTowardTargetClamped := by
  intro c t up dn
  by_cases hr : c.toNat < t.toNat ∧ 0 < up.toNat
  · rw [if_pos hr, fade_rising hr.1 hr.2]
    omega
  · by_cases hf : t.toNat < c.toNat ∧ 0 < dn.toNat
    · rw [if_neg hr, if_pos hf, fade_falling hf.1 hf.2]
      omega
    · rw [if_neg hr, if_neg hf, fade_jump hr hf]
      omega

/-! ### `FADE` again and again (R92) -/

section
variable {c t up dn : Byte}

theorem fade_iterate_rising (hct : c.toNat < t.toNat) (hup : 0 < up.toNat) (k : Nat) :
    ((fade · t up dn)^[k] c).toNat = min (c.toNat + k * up.toNat) t.toNat := by
  induction k with
  | zero => simp [hct.le]
  | succ k ih =>
    rw [Function.iterate_succ_apply', Nat.succ_mul]
    by_cases hlt : ((fade · t up dn)^[k] c).toNat < t.toNat
    · rw [fade_rising hlt hup]
      omega
    · rw [fade_jump (by omega) (by omega)]
      omega

theorem fade_iterate_falling (hct : t.toNat < c.toNat) (hdn : 0 < dn.toNat) (k : Nat) :
    ((fade · t up dn)^[k] c).toNat = max (c.toNat - k * dn.toNat) t.toNat := by
  induction k with
  | zero => simp [hct.le]
  | succ k ih =>
    rw [Function.iterate_succ_apply', Nat.succ_mul]
    by_cases hlt : t.toNat < ((fade · t up dn)^[k] c).toNat
    · rw [fade_falling hlt hdn]
      omega
    · rw [fade_jump (by omega) (by omega)]
      omega

theorem fade_iterate_jump (hup : ¬ (c.toNat < t.toNat ∧ 0 < up.toNat)) (hdn : ¬ (t.toNat < c.toNat ∧ 0 < dn.toNat)) {k : Nat}
    (hk : 1 ≤ k) : (fade · t up dn)^[k] c = t := by
  obtain ⟨k, rfl⟩ := Nat.exists_eq_add_of_le' hk
  rw [Function.iterate_succ_apply, fade_jump hup hdn]
  exact Function.iterate_fixed (fade_at_target t up dn) k

/-- The fade updates of `k` cycle-start ticks are `k` steps of `FADE` on `current`. -/
theorem Slot.faded_iterate (c : Slot) (k : Nat) :
    Slot.faded^[k] c = { c with current := (fade · c.target c.up c.down)^[k] c.current } := by
  induction k with
  | zero => rfl
  | succ k ih => rw [Function.iterate_succ_apply', Function.iterate_succ_apply', ih, Slot.faded]

/-- At rate `r` a distance `a` is covered in `k` steps once `k` is at least `a / r` rounded up, as R92 writes it. -/
theorem le_mul_of_ceil_le {a r k : Nat} (hr : 0 < r) (h : (a + r - 1) / r ≤ k) : a ≤ k * r := by
  rw [← Nat.ceilDiv_eq_add_pred_div, ceilDiv_le_iff_le_mul hr] at h
  rwa [Nat.mul_comm]

end

/-! ### A run of ticks, slot by slot -/

theorem tickRoutine_cnt_toNat (s : State) : (tickRoutine s).cnt.toNat = (s.cnt.toNat + 1) % 256 := by
  simp [BitVec.toNat_add]

theorem fadedIf_of_occupied {c : Slot} (h : c.occupied = true) : fadedIf c = c.faded := if_pos h

/-- An occupied slot after `n` ticks: one fade update for each wrap of the counter. -/
theorem ticks_slot (n : Nat) (s : State) {i : Nat} {c : Slot} (hrun : s.tmrRun = true)
    (hports : ∀ d ∈ s.ch, d.occupied = true → s.cfg.isPort d.oreg = true) (hc : s.ch[i]? = some c) (hocc : c.occupied = true) :
    ∃ t, ticks n s = .next t ∧ t.ch[i]? = some (Slot.faded^[(s.cnt.toNat + n) / 256] c) := by
  induction n generalizing s c with
  | zero =>
    have hk : (s.cnt.toNat + 0) / 256 = 0 := Nat.div_eq_of_lt s.cnt.isLt
    exact ⟨s, rfl, by rw [hk, hc]; rfl⟩
  | succ n ih =>
    have hslot := tickRoutine_getElem? s i
    rw [hc, Option.map_some, fadedIf_of_occupied hocc] at hslot
    have hocc' : (if s.cnt = 255#8 then c.faded else c).occupied = true := by split <;> exact hocc
    obtain ⟨t, ht, hti⟩ := ih (tickRoutine s) (by simpa using hrun) (tickRoutine_ports s hports) hslot hocc'
    refine ⟨t, by rw [ticks_succ s n hrun hports, ht], ?_⟩
    rw [hti, tickRoutine_cnt_toNat]
    split
    next hwrap =>
      have hk : (s.cnt.toNat + (n + 1)) / 256 = ((s.cnt.toNat + 1) % 256 + n) / 256 + 1 := by
        rw [hwrap, BitVec.toNat_ofNat]
        omega
      rw [hk, Function.iterate_succ_apply]
    next hwrap =>
      have hlt : s.cnt.toNat ≠ 255 := fun e => hwrap (BitVec.eq_of_toNat_eq e)
      have hk : (s.cnt.toNat + (n + 1)) / 256 = ((s.cnt.toNat + 1) % 256 + n) / 256 := by
        have := s.cnt.isLt
        omega
      rw [hk]

/-- Settles O17: as many fade updates as the counter has wrapped, each in closed form. -/
theorem fadeConvergesInClosedForm : Obligations.FadeConvergesInClosedForm := by
  intro s i c n hrun hports hc hocc
  obtain ⟨t, ht, hti⟩ := ticks_slot n s hrun hports hc hocc
  rw [Slot.faded_iterate] at hti
  refine ⟨t, _, ht, hti, rfl, fun hct hup => ?_, fun hct hdn => ?_, fun hup hdn hk => fade_iterate_jump hup hdn hk⟩
  · have hval := fade_iterate_rising (dn := c.down) hct hup ((s.cnt.toNat + n) / 256)
    refine ⟨hval, fun hk => BitVec.eq_of_toNat_eq (hval.trans ?_)⟩
    have := le_mul_of_ceil_le hup hk
    omega
  · have hval := fade_iterate_falling (up := c.up) hct hdn ((s.cnt.toNat + n) / 256)
    refine ⟨hval, fun hk => BitVec.eq_of_toNat_eq (hval.trans ?_)⟩
    have := le_mul_of_ceil_le hdn hk
    omega

/-! ### A tick inside `SETRATE` (R111) -/

/-- On the way up `FADE` does not read `down`. -/
theorem fade_down_irrelevant {c t : Byte} (h : c.toNat ≤ t.toNat) (up dn dn' : Byte) : fade c t up dn = fade c t up dn' := by
  by_cases hr : c.toNat < t.toNat ∧ 0 < up.toNat
  · exact BitVec.eq_of_toNat_eq ((fade_rising hr.1 hr.2).trans (fade_rising hr.1 hr.2).symm)
  · rw [fade_jump hr (by omega), fade_jump hr (by omega)]

/-- On the way down `FADE` does not read `up`. -/
theorem fade_up_irrelevant {c t : Byte} (h : t.toNat ≤ c.toNat) (up up' dn : Byte) : fade c t up dn = fade c t up' dn := by
  by_cases hf : t.toNat < c.toNat ∧ 0 < dn.toNat
  · exact BitVec.eq_of_toNat_eq ((fade_falling hf.1 hf.2).trans (fade_falling hf.1 hf.2).symm)
  · rw [fade_jump (by omega) hf, fade_jump (by omega) hf]

/-- Each rate one of two: `FADE` reads one rate only, so it is as with the first pair or as with the second. -/
theorem fade_mixed_rates {up up0 up1 dn dn0 dn1 : Byte} (c t : Byte) (hup : up = up0 ∨ up = up1) (hdn : dn = dn0 ∨ dn = dn1) :
    fade c t up dn = fade c t up0 dn0 ∨ fade c t up dn = fade c t up1 dn1 := by
  rcases Nat.le_total c.toNat t.toNat with h | h
  · refine hup.imp ?_ ?_ <;> rintro rfl <;> exact fade_down_irrelevant h _ _ _
  · refine hdn.imp ?_ ?_ <;> rintro rfl <;> exact fade_up_irrelevant h _ _ _

/-- One of the writes of `SETRATE _, u, d`. -/
def MicroOp.RateWrite (u d : Byte) (op : MicroOp) : Prop := ∃ i, op = .setUp i u ∨ op = .setDown i d

/-- A slot goes from `c` to `c'` by writes of `u` to `up` and of `d` to `down`, each done or not. -/
structure Slot.Rated (u d : Byte) (c c' : Slot) : Prop where
  others : c' = { c with up := c'.up, down := c'.down }
  up     : c'.up = c.up ∨ c'.up = u
  down   : c'.down = c.down ∨ c'.down = d

section
variable {u d : Byte} {c c' c'' : Slot}

theorem Slot.Rated.refl (u d : Byte) (c : Slot) : c.Rated u d c := ⟨rfl, .inl rfl, .inl rfl⟩

theorem Slot.Rated.trans (h : c.Rated u d c') (h' : c'.Rated u d c'') : c.Rated u d c'' where
  others := by rw [h'.others, h.others]
  up := h'.up.elim (fun e => e ▸ h.up) .inr
  down := h'.down.elim (fun e => e ▸ h.down) .inr

theorem MicroOp.RateWrite.onSlot {op : MicroOp} (h : op.RateWrite u d) (i : Nat) (c : Slot) : c.Rated u d (op.onSlot i c) := by
  obtain ⟨j, rfl | rfl⟩ := h <;> simp only [MicroOp.onSlot] <;> split
  · exact ⟨rfl, .inr rfl, .inl rfl⟩
  · exact .refl u d c
  · exact ⟨rfl, .inl rfl, .inr rfl⟩
  · exact .refl u d c

theorem afterOps_rated {ops : List MicroOp} (h : ∀ op ∈ ops, op.RateWrite u d) {s : State} {i : Nat} {c' : Slot}
    (hc' : (s.afterOps ops).ch[i]? = some c') : ∃ c, s.ch[i]? = some c ∧ c.Rated u d c' := by
  induction ops generalizing s with
  | nil => exact ⟨c', hc', .refl u d c'⟩
  | cons op ops ih =>
    obtain ⟨hop, hops⟩ := List.forall_mem_cons.1 h
    obtain ⟨c₁, hc₁, hrest⟩ := ih hops hc'
    rw [MicroOp.apply_getElem?, Option.map_eq_some_iff] at hc₁
    obtain ⟨c, hc, rfl⟩ := hc₁
    exact ⟨c, hc, (hop.onSlot i c).trans hrest⟩

/-- The writes change the table only. -/
theorem afterOps_rate_ch_only {ops : List MicroOp} (h : ∀ op ∈ ops, op.RateWrite u d) (s : State) :
    ∃ l, s.afterOps ops = { s with ch := l } := by
  induction ops generalizing s with
  | nil => exact ⟨s.ch, rfl⟩
  | cons op ops ih =>
    obtain ⟨⟨j, hop⟩, hops⟩ := List.forall_mem_cons.1 h
    obtain ⟨l, hl⟩ := ih hops (op.apply s)
    refine ⟨l, ?_⟩
    rw [State.afterOps_cons, hl]
    obtain rfl | rfl := hop <;> rfl

/-- `TICK` after some of the writes completes where it completes before them: they move no port address (R90). -/
theorem exec_tick_afterOps_rate {ops : List MicroOp} (h : ∀ op ∈ ops, op.RateWrite u d) {s : State} (hrun : s.tmrRun = true)
    (hports : ∀ c ∈ s.ch, c.occupied = true → s.cfg.isPort c.oreg = true) :
    exec .tick (s.afterOps ops) = .next (tickRoutine (s.afterOps ops)) := by
  obtain ⟨l, hl⟩ := afterOps_rate_ch_only h s
  refine execTick_next _ (by rw [hl]; exact hrun) fun c' hmem hocc => ?_
  obtain ⟨i, hi⟩ := List.getElem?_of_mem hmem
  obtain ⟨c, hc, hr⟩ := afterOps_rated h hi
  rw [hr.others] at hocc ⊢
  rw [State.afterOps_cfg]
  exact hports c (List.mem_of_getElem? hc) hocc

/-- The slot that a tick after some of the writes leaves: it ticks the slot that the writes left, at the same counter. -/
theorem tickRoutine_afterOps_rate {ops : List MicroOp} (h : ∀ op ∈ ops, op.RateWrite u d) {s : State} {i : Nat} {e : Slot}
    (he : (tickRoutine (s.afterOps ops)).ch[i]? = some e) :
    ∃ c, (s.afterOps ops).ch[i]? = some c ∧ e = if s.cnt = 255#8 then fadedIf c else c := by
  obtain ⟨l, hl⟩ := afterOps_rate_ch_only h s
  have hcnt : (s.afterOps ops).cnt = s.cnt := by rw [hl]
  rw [tickRoutine_getElem?, Option.map_eq_some_iff, hcnt] at he
  obtain ⟨c, hc, rfl⟩ := he
  exact ⟨c, hc, rfl⟩

/-- A slot with some of the writes done fades to where it fades with none of them done or with all of them. -/
theorem Slot.Rated.fadedIf_current (h : c.Rated u d c') (h' : c'.Rated u d c'') :
    (fadedIf c').current = (fadedIf c).current ∨ (fadedIf c').current = (fadedIf c'').current := by
  have hocc : c'.occupied = c.occupied := by rw [h.others]; rfl
  have hocc' : c''.occupied = c'.occupied := by rw [h'.others]; rfl
  by_cases ho : c.occupied = true
  · rw [fadedIf_of_occupied ho, fadedIf_of_occupied (hocc.trans ho), fadedIf_of_occupied (hocc'.trans (hocc.trans ho))]
    have hup : c'.up = c.up ∨ c'.up = c''.up := h.up.imp_right fun e => h'.up.elim Eq.symm fun e' => e.trans e'.symm
    have hdown : c'.down = c.down ∨ c'.down = c''.down :=
      h.down.imp_right fun e => h'.down.elim Eq.symm fun e' => e.trans e'.symm
    have hmixed := fade_mixed_rates c'.current c'.target hup hdown
    have hc : c'.current = c.current ∧ c'.target = c.target := by rw [h.others]; exact ⟨rfl, rfl⟩
    have hc'' : c''.current = c'.current ∧ c''.target = c'.target := by rw [h'.others]; exact ⟨rfl, rfl⟩
    simpa only [Slot.faded, hc'', hc] using hmixed
  · left
    rw [fadedIf, if_neg (hocc ▸ ho), fadedIf, if_neg ho, h.others]

/-- A tick after the first `k` of the writes leaves in each slot the `current` of a tick before all of them or after all of them. -/
theorem tick_inside_rate_writes {ops : List MicroOp} (hall : ∀ op ∈ ops, op.RateWrite u d) (k : Nat) {s : State} {i : Nat}
    {e₀ e e₁ : Slot} (h₀ : (tickRoutine s).ch[i]? = some e₀) (h : (tickRoutine (s.afterOps (ops.take k))).ch[i]? = some e)
    (h₁ : (tickRoutine (s.afterOps ops)).ch[i]? = some e₁) : e.current = e₀.current ∨ e.current = e₁.current := by
  have htake : ∀ op ∈ ops.take k, op.RateWrite u d := fun op ho => hall op (List.mem_of_mem_take ho)
  have hdrop : ∀ op ∈ ops.drop k, op.RateWrite u d := fun op ho => hall op (List.mem_of_mem_drop ho)
  obtain ⟨c', hc', rfl⟩ := tickRoutine_afterOps_rate htake h
  obtain ⟨c'', hc'', rfl⟩ := tickRoutine_afterOps_rate hall h₁
  obtain ⟨c, hc, hdone⟩ := afterOps_rated htake hc'
  obtain ⟨x, hx, hleft⟩ : ∃ x, (s.afterOps (ops.take k)).ch[i]? = some x ∧ x.Rated u d c'' := by
    refine afterOps_rated hdrop ?_
    rwa [← State.afterOps_append, List.take_append_drop]
  obtain rfl : c' = x := Option.some.inj (hc'.symm.trans hx)
  rw [tickRoutine_getElem?, hc, Option.map_some, Option.some.injEq] at h₀
  subst h₀
  split_ifs
  · exact hdone.fadedIf_current hleft
  · exact .inl (by rw [hdone.others])

end

theorem setrate_rateWrites (l : List Nat) (u d : Byte) :
    ∀ op ∈ l.flatMap fun i => [MicroOp.setUp i u, .setDown i d], op.RateWrite u d := by
  rw [List.forall_mem_flatMap]
  intro i _
  simp [MicroOp.RateWrite]

/-- Settles O18: after any number of the writes each rate of a slot is the old or the final one, and `FADE` reads one of the two. -/
theorem tickInsideSetrateIsBeforeOrAfter : Obligations.TickInsideSetrateIsBeforeOrAfter := by
  intro s p u d k hrun hq hports
  have hqueue : s.Queues (.setrate p u d) _ := queues_setrate_iff.2 ⟨hrun, rfl⟩
  rw [State.Queues, hq, List.nil_append] at hqueue
  have hall := setrate_rateWrites (s.matchPin p) u d
  have htake := fun op ho => hall op (List.mem_of_mem_take (i := k) ho)
  exact ⟨_, hqueue, _, _, _, execTick_next s hrun hports, exec_tick_afterOps_rate htake hrun hports,
    exec_tick_afterOps_rate hall hrun hports, fun _ _ _ _ h₀ h h₁ => tick_inside_rate_writes hall k h₀ h h₁⟩

end Sys2Proof.Machine
end

