-- ==== Sys2Proof/Proofs/Pulse.lean ====
section
/-!
PROOF. What `TICK` makes of the counter, the table and the bits of one occupied slot, over one tick and over a cycle (40_tick.md R80 to R91;
70_reset_and_hazards.md R157, R158).
-/

namespace Sys2Proof.Machine

/-! ### One tick, field by field -/

theorem tickRoutine_cnt_ch_out_only (s : State) :
    tickRoutine s = { s with cnt := (tickRoutine s).cnt, ch := (tickRoutine s).ch, out := (tickRoutine s).out } := by
  rw [tickRoutine_eq]
  split <;> rfl

/-- Settles O9: the routine runs, and its fields are read off. -/
theorem tickCompletesWithCounterAndFade : Obligations.TickCompletesWithCounterAndFade := by
  intro s hrun hports
  refine ⟨tickRoutine s, execTick_next s hrun hports, tickRoutine_cnt_toNat s, fun hwrap => ?_, fun hwrap => ?_,
    tickRoutine_cnt_ch_out_only s⟩
  · rw [tickRoutine_ch, if_pos hwrap]
    rfl
  · rw [tickRoutine_ch, if_neg hwrap]

/-! ### The bits of a slot that is alone on them -/

section
variable (c : Slot)
@[simp] theorem Slot.faded_pol : c.faded.pol = c.pol := rfl
@[simp] theorem Slot.faded_oreg : c.faded.oreg = c.oreg := rfl
@[simp] theorem Slot.faded_mask : c.faded.mask = c.mask := rfl
@[simp] theorem Slot.faded_current : c.faded.current = fade c.current c.target c.up c.down := rfl
end

/-- `State.alone` as a property of the table. -/
def AloneIn (l : List Slot) (i : Nat) (c : Slot) : Prop :=
  ∀ (j : Nat) (d : Slot), l[j]? = some d → j ≠ i → d.occupied = true → d.oreg = c.oreg → d.mask &&& c.mask = 0#8

theorem State.alone_iff {s : State} {i : Nat} {c : Slot} : s.alone i c ↔ AloneIn s.ch i c := Iff.rfl

/-- The cycle-start part moves no slot's bits. -/
theorem AloneIn.map_fadedIf {l : List Slot} {i : Nat} {c : Slot} (h : AloneIn l i c) : AloneIn (l.map fadedIf) i c.faded := by
  intro j d' hd' hj hocc horeg
  rw [List.getElem?_map, Option.map_eq_some_iff] at hd'
  obtain ⟨d, hd, rfl⟩ := hd'
  rw [fadedIf_occupied] at hocc
  rw [fadedIf_oreg, Slot.faded_oreg] at horeg
  rw [fadedIf_mask, Slot.faded_mask]
  exact h j d hd hj hocc horeg

theorem getLsbD_of_and_eq_zero {m n : Byte} {k : Nat} (h : m &&& n = 0#8) (hn : n.getLsbD k = true) :
    m.getLsbD k = false := by
  have hbit := congrArg (BitVec.getLsbD · k) h
  simpa [hn] using hbit

theorem levelBits_getLsbD (l : Level) (m : Byte) (k : Nat) :
    (levelBits l m).getLsbD k = (m.getLsbD k && decide (l = .high)) := by
  cases l <;> simp [levelBits]

section
variable {l : List Slot} {o : Memory} {i : Nat} {c : Slot}

/-- The bits of an occupied slot after a drive loop over occupied slots: at the slot's level if the loop picks it, else as before. -/
theorem AloneIn.condDrive (h : AloneIn l i c) (hwf : Memory.wf o = true) (hc : l[i]? = some c) {P : Slot → Bool}
    (hP : ∀ d, P d = true → d.occupied = true) (L : Slot → Level) :
    Memory.read (l.foldl (condDrive P L) o) c.oreg &&& c.mask =
      if P c = true then levelBits (L c) c.mask else Memory.read o c.oreg &&& c.mask := by
  apply BitVec.eq_of_getLsbD_eq
  intro k hk
  have hother : c.mask.getLsbD k = true → ∀ (j : Nat) (d : Slot), l[j]? = some d → j ≠ i → P d = true → d.oreg = c.oreg →
      d.mask.getLsbD k = false :=
    fun hm j d hd hj hPd horeg => getLsbD_of_and_eq_zero (h j d hd hj (hP d hPd) horeg) hm
  rw [BitVec.getLsbD_and]
  cases hm : c.mask.getLsbD k with
  | false => split <;> simp [levelBits_getLsbD, hm]
  | true =>
    split
    next hPc =>
      rw [condDrive_hit P L l hwf i c k hk hc hPc hm (hother hm), levelBits_getLsbD, hm, Bool.and_true, Bool.true_and]
    next hPc =>
      rw [condDrive_skip P L l hwf c.oreg k hk, BitVec.getLsbD_and, hm]
      intro d hd hPd
      obtain ⟨j, hj⟩ := List.getElem?_of_mem hd
      refine hother hm j d hj ?_ hPd
      rintro rfl
      exact hPc (Option.some.inj (hc.symm.trans hj) ▸ hPd)

/-- The rising edges bring a slot with a non-zero `current` to the on level (R85). -/
theorem AloneIn.rise (h : AloneIn l i c) (hwf : Memory.wf o = true) (hc : l[i]? = some c) (hocc : c.occupied = true) :
    Memory.read (l.foldl riseOut o) c.oreg &&& c.mask =
      if c.current = 0#8 then Memory.read o c.oreg &&& c.mask else levelBits (Polarity.onLevel c.pol) c.mask := by
  rw [riseOut_eq, h.condDrive hwf hc fun d hd => (Bool.and_eq_true_iff.1 hd).1]
  by_cases h0 : c.current = 0#8 <;> simp [hocc, h0]

/-- The falling edges bring a slot whose `current` is the counter to the off level (R86). -/
theorem AloneIn.fall (h : AloneIn l i c) (hwf : Memory.wf o = true) (hc : l[i]? = some c) (hocc : c.occupied = true)
    (n : Byte) :
    Memory.read (l.foldl (fallOut n) o) c.oreg &&& c.mask =
      if c.current = n then levelBits (Polarity.offLevel c.pol) c.mask else Memory.read o c.oreg &&& c.mask := by
  rw [fallOut_eq, h.condDrive hwf hc fun d hd => (Bool.and_eq_true_iff.1 hd).1]
  by_cases hn : c.current = n <;> simp [hocc, hn]

end

section
variable {s : State} {i : Nat} {c : Slot} (hwf : Memory.wf s.out = true) (hc : s.ch[i]? = some c) (hocc : c.occupied = true)
  (halone : s.alone i c)
include hwf hc hocc halone

/-- The bits of an occupied slot after a cycle-start tick: on, unless the new `current` is 0 (R85, R86). -/
theorem tickRoutine_bits_of_wrap (hwrap : s.cnt = 255#8) :
    (tickRoutine s).outAt c.oreg &&& c.mask =
      if c.faded.current = 0#8 then levelBits (Polarity.offLevel c.pol) c.mask
      else levelBits (Polarity.onLevel c.pol) c.mask := by
  have hslot : (s.ch.map fadedIf)[i]? = some c.faded := by
    rw [List.getElem?_map, hc, Option.map_some, fadedIf_of_occupied hocc]
  have hfaded := (State.alone_iff.1 halone).map_fadedIf
  have hrise := hfaded.rise hwf hslot hocc
  have hfall := hfaded.fall (foldl_riseOut_wf (s.ch.map fadedIf) hwf) hslot hocc 0#8
  rw [Slot.faded_oreg, Slot.faded_mask, Slot.faded_pol] at hrise hfall
  rw [State.outAt, tickRoutine_out, if_pos hwrap, (succ_eq_zero_iff s.cnt).2 hwrap, hfall]
  split
  next => rfl
  next h0 => rw [hrise, if_neg h0]

/-- The bits of an occupied slot after any other tick: off if the counter meets `current`, else as before (R86). -/
theorem tickRoutine_bits_of_no_wrap (hwrap : s.cnt ≠ 255#8) :
    (tickRoutine s).outAt c.oreg &&& c.mask =
      if c.current = s.cnt + 1#8 then levelBits (Polarity.offLevel c.pol) c.mask else s.outAt c.oreg &&& c.mask := by
  rw [State.outAt, tickRoutine_out, if_neg hwrap, (State.alone_iff.1 halone).fall hwf hc hocc, State.outAt]

end

/-- Settles O10: a tick is a cycle-start tick or it is not. -/
theorem tickDrivesAnOccupiedSlot : Obligations.TickDrivesAnOccupiedSlot := by
  intro s i c hrun hports hwf hc hocc halone
  have hslot := tickRoutine_getElem? s i
  rw [hc, Option.map_some] at hslot
  refine ⟨tickRoutine s, _, execTick_next s hrun hports, hslot, ?_⟩
  rw [tickRoutine_cnt]
  by_cases hwrap : s.cnt = 255#8
  · have hzero := (succ_eq_zero_iff s.cnt).2 hwrap
    rw [tickRoutine_bits_of_wrap hwf hc hocc halone hwrap, if_pos hwrap, fadedIf_of_occupied hocc, hzero, if_pos rfl]
  · have hzero := mt (succ_eq_zero_iff s.cnt).1 hwrap
    rw [tickRoutine_bits_of_no_wrap hwf hc hocc halone hwrap, if_neg hwrap, if_neg hzero]

/-! ### The bits of a slot over a cycle -/

theorem tickRoutine_outWf {s : State} (h : Memory.wf s.out = true) : Memory.wf (tickRoutine s).out = true := by
  rw [tickRoutine_out]
  split
  · exact foldl_fallOut_wf _ _ (foldl_riseOut_wf _ h)
  · exact foldl_fallOut_wf _ _ h

/-- Settles O15, by induction on the number of ticks: none of them is a cycle-start tick, so the table stays and the first tick can only
turn the bits off. -/
theorem levelHoldsUntilTheComparatorMatches : Obligations.LevelHoldsUntilTheComparatorMatches := by
  intro s i c n hrun hports hwf hc hocc halone hlt
  induction n generalizing s with
  | zero => exact ⟨s, rfl, (if_neg (by omega)).symm⟩
  | succ n ih =>
    have hwrap : s.cnt ≠ 255#8 := by
      intro e
      simp only [e, BitVec.toNat_ofNat] at hlt
      omega
    have hch : (tickRoutine s).ch = s.ch := by rw [tickRoutine_ch, if_neg hwrap]
    have hcnt : (tickRoutine s).cnt.toNat = s.cnt.toNat + 1 := by
      rw [tickRoutine_cnt_toNat]
      omega
    obtain ⟨t, ht, hbits⟩ := ih (tickRoutine s) (by simpa using hrun) (tickRoutine_ports s hports) (tickRoutine_outWf hwf)
      (by rw [hch, hc]) (by rwa [State.alone_iff, hch]) (by omega)
    refine ⟨t, by rw [ticks_succ s n hrun hports, ht], ?_⟩
    have hmeet : c.current = s.cnt + 1#8 ↔ c.current.toNat = s.cnt.toNat + 1 := by
      rw [← hcnt, tickRoutine_cnt, BitVec.toNat_inj]
    rw [hbits, tickRoutine_bits_of_no_wrap hwf hc hocc halone hwrap, hcnt]
    by_cases hnow : c.current = s.cnt + 1#8
    · have hval := hmeet.1 hnow
      rw [if_pos hnow, ite_self, if_pos (by omega)]
    · have hval := mt hmeet.2 hnow
      rw [if_neg hnow]
      exact if_congr (by omega) rfl rfl

/-- Settles O16: the cycle-start tick brings the bits to the level of the new `current`, which holds until the counter meets it. -/
theorem pulseIsOnForExactlyTheDuty : Obligations.PulseIsOnForExactlyTheDuty := by
  intro s i c hrun hports hwf hwrap hc hocc halone n hn
  have hslot : (tickRoutine s).ch[i]? = some c.faded := by
    rw [tickRoutine_getElem?, hc, Option.map_some, if_pos hwrap, fadedIf_of_occupied hocc]
  have halone' : (tickRoutine s).alone i c.faded := by
    rw [State.alone_iff, tickRoutine_ch, if_pos hwrap]
    exact (State.alone_iff.1 halone).map_fadedIf
  have hcnt : (tickRoutine s).cnt.toNat = 0 := by rw [tickRoutine_cnt_toNat, hwrap]; rfl
  have hrun' : (tickRoutine s).tmrRun = true := by simpa using hrun
  have hports' := tickRoutine_ports s hports
  obtain ⟨t, ht, hbits⟩ := levelHoldsUntilTheComparatorMatches (tickRoutine s) i c.faded n hrun' hports'
    (tickRoutine_outWf hwf) hslot hocc halone' (by omega)
  obtain ⟨t', ht', hcount, -⟩ := currentIsHeldWithinACycle (tickRoutine s) n hrun' hports'
  obtain rfl : t' = t := Host.Outcome.next.inj (ht'.symm.trans ht)
  refine ⟨t', by rw [ticks_succ s n hrun hports, ht], by omega, ?_⟩
  have hfirst := tickRoutine_bits_of_wrap hwf hc hocc halone hwrap
  rw [Slot.faded_oreg, Slot.faded_mask, Slot.faded_pol, hfirst, hcnt, Slot.faded_current] at hbits
  rw [hbits]
  by_cases hon : n < (fade c.current c.target c.up c.down).toNat
  · have hne : fade c.current c.target c.up c.down ≠ 0#8 := fun e => by simp [e] at hon
    rw [if_neg (by omega), if_neg hne, if_pos hon]
  · rw [if_neg hon]
    by_cases h0 : fade c.current c.target c.up c.down = 0#8
    · rw [if_pos h0, ite_self]
    · have hpos : (fade c.current c.target c.up c.down).toNat ≠ 0 := fun e => h0 (BitVec.eq_of_toNat_eq e)
      rw [if_pos (by omega)]

end Sys2Proof.Machine
end

