-- ==== Sys2Proof/Proofs/Faults.lean ====
section
/-!
PROOF. Where `exec` faults (40_tick.md R90; 93_implementation_defined.md U1), that a state that meets the invariant reaches no fault (R130,
R134), and that there every occupied slot has bits of its own (R145).
-/

namespace Sys2Proof.Machine

/-! ### The faults of `exec` -/

theorem exec_tick_fault_iff {s : State} {r : Fault} :
    exec .tick s = .fault r ↔
      r = .badPortAddress ∧ s.tmrRun = true ∧ ∃ c ∈ s.ch, c.occupied = true ∧ s.cfg.isPort c.oreg = false := by
  have hbad : s.portsOk = false ↔ ∃ c ∈ s.ch, c.occupied = true ∧ s.cfg.isPort c.oreg = false := by
    rw [← Bool.not_eq_true, portsOk_iff]
    simp
  rw [exec_tick, ← hbad]
  obtain ⟨hrun, hs⟩ | ⟨-, hports, hs⟩ | ⟨hrun, hports, hs⟩ := execTick_cases s <;> rw [hs]
  · simp [hrun]
  · simp [hports]
  · simp [hrun, hports, eq_comm]

theorem exec_detach_fault_iff {s : State} {p : Byte} {r : Fault} :
    exec (.detach p) s = .fault r ↔
      r = .badPortAddress ∧ s.tmrRun = true ∧
        ∃ c ∈ s.ch, c.matchesPin p = true ∧ (s.cfg.isPort c.oreg = false ∨ s.cfg.validPin c.pin = false) := by
  have hbad : (s.matchPin p).all s.detachable = false ↔
      ∃ c ∈ s.ch, c.matchesPin p = true ∧ (s.cfg.isPort c.oreg = false ∨ s.cfg.validPin c.pin = false) := by
    rw [← Bool.not_eq_true, detachable_iff]
    simp [imp_iff_not_or]
  rw [exec_detach, execDetach, afterInit, ← hbad]
  cases s.tmrRun <;> cases (s.matchPin p).all s.detachable <;> simp [startCommand, eq_comm]

/-- Settles O32: only `TICK` and `DETACH` fault, each on its own check. -/
theorem faultsAreMalformedSlotsOnly : Obligations.FaultsAreMalformedSlotsOnly := by
  intro s i r
  constructor
  · intro hfault
    by_cases htick : i = .tick
    · subst htick
      obtain ⟨hr, hrun, hbad⟩ := exec_tick_fault_iff.1 hfault
      exact ⟨hr, hrun, .inl ⟨rfl, hbad⟩⟩
    · obtain ⟨ops, hs⟩ | ⟨r', hs⟩ | ⟨p, rfl, -, -⟩ := exec_host_cases s i htick
      · rw [hs] at hfault
        cases hfault
      · rw [hs] at hfault
        cases hfault
      · obtain ⟨hr, hrun, hbad⟩ := exec_detach_fault_iff.1 hfault
        exact ⟨hr, hrun, .inr ⟨p, rfl, hbad⟩⟩
  · rintro ⟨hr, hrun, ⟨rfl, hbad⟩ | ⟨p, rfl, hbad⟩⟩
    · exact exec_tick_fault_iff.2 ⟨hr, hrun, hbad⟩
    · exact exec_detach_fault_iff.2 ⟨hr, hrun, hbad⟩

/-! ### No fault where the invariant holds -/

section
variable {s : State} (h : s.Inv)
include h

/-- In a well-formed table an occupied slot holds a port, and a pin that `RESOLVE` answers: no instruction faults. -/
theorem State.Inv.exec_ne_fault (i : Instr) (r : Fault) : exec i s ≠ .fault r := by
  intro hfault
  obtain ⟨-, hrun, hbad⟩ := (faultsAreMalformedSlotsOnly s i r).1 hfault
  have hgood : ∀ c ∈ s.ch, c.occupied = true → s.cfg.isPort c.oreg = true ∧ s.cfg.validPin c.pin = true := by
    intro c hc hocc
    have hres := (h.ahead 0 hrun).1.resolved c hc hocc
    exact ⟨(resolve_isPort hres).1, validPin_of_resolve hres⟩
  obtain ⟨-, c, hc, hocc, hport⟩ | ⟨p, -, c, hc, hmatch, hport⟩ := hbad
  · simp [hgood c hc hocc] at hport
  · have hocc : c.occupied = true := (Bool.and_eq_true_iff.1 hmatch).1
    simp [hgood c hc hocc] at hport

theorem State.Inv.setSchedule (ts : List Turn) : (s.setSchedule ts).Inv :=
  h.of_hostView_eq rfl (State.inv_iff.1 h).1.out

theorem State.Inv.setProgram (ws : List Word) : (s.setProgram ws).Inv :=
  h.of_hostView_eq rfl (State.inv_iff.1 h).1.out

theorem State.Inv.acceptWord_ne_fault (w : Word) (r : Fault) : acceptWord w s ≠ .fault r := by
  unfold acceptWord
  split
  next i _ => exact h.exec_ne_fault i r
  next => simp

theorem State.Inv.hostTurn_ne_fault (r : Fault) : hostTurn s ≠ .fault r := by
  rcases hq : s.hostq with _ | ⟨op, ops⟩
  · rcases hp : s.program with _ | ⟨w, ws⟩
    · simp [hostTurn_idle hq hp]
    · rw [hostTurn_word hq hp]
      exact (h.setProgram ws).acceptWord_ne_fault w r
  · have hdef : op.defined s.cfg = true := h.queued op (by simp [hq])
    simp [hostTurn_micro hq, runMicro_of_defined (s.setHostq ops) hdef]

end

/-- Settles O47, turn by turn. -/
theorem invariantStatesNeverFault : Obligations.InvariantStatesNeverFault := by
  intro s hinv r
  rcases hT : s.takeTurn with ⟨turn, s0⟩
  obtain ⟨ts, rfl⟩ := takeTurn_eq s hT
  have h0 := hinv.setSchedule ts
  rw [step_of_takeTurn hT]
  cases turn with
  | strobe => exact h0.exec_ne_fault .tick r
  | host => exact h0.hostTurn_ne_fault r
  | foreign a v => simp [takeInput]

/-! ### Every occupied slot has bits of its own -/

/-- What `RESOLVE` answers stands in the platform's list of pins. -/
theorem mem_pins_of_resolve {c : Config} {p : Byte} {a : PortAddr} {m : Byte} (h : c.resolve p = some (a, m)) :
    (⟨p, a, m⟩ : PinEntry) ∈ c.pins := by
  unfold Config.resolve at h
  split_ifs at h
  split at h
  next e he =>
    have hpin : e.pin = p := by simpa using List.find?_some he
    simp only [Option.some.injEq, Prod.mk.injEq] at h
    obtain ⟨rfl, rfl⟩ := h
    exact hpin ▸ List.mem_of_find?_eq_some he
  next => cases h

/-- The premise of R145 on two pins that `RESOLVE` answers. -/
theorem resolve_masks_disjoint {c : Config} (h : c.disjoint = true) {p q : Byte} {a : PortAddr} {m n : Byte} (hpq : p ≠ q)
    (hp : c.resolve p = some (a, m)) (hq : c.resolve q = some (a, n)) : m &&& n = 0#8 := by
  simp only [Config.disjoint, List.all_eq_true] at h
  have hpair := h _ (mem_pins_of_resolve hp) _ (mem_pins_of_resolve hq)
  simpa [hpq] using hpair

/-- Settles O48: two occupied slots own two pins, and each holds what `RESOLVE` gives for its own. -/
theorem disjointPinsGiveEverySlotItsOwnBits : Obligations.DisjointPinsGiveEverySlotItsOwnBits := by
  intro s i c hinv hdisjoint hrun hc hocc j d hd hj hocc' horeg
  have htable := (hinv.ahead 0 hrun).1
  have hpins : d.pin ≠ c.pin := fun e => hj (htable.unique j i d c hd hc hocc' hocc e)
  have hresd := htable.resolved d (List.mem_of_getElem? hd) hocc'
  rw [horeg] at hresd
  exact resolve_masks_disjoint hdisjoint hpins hresd (htable.resolved c (List.mem_of_getElem? hc) hocc)

end Sys2Proof.Machine
end

