-- ==== Sys2Proof/Proofs/HostCommands.lean ====
section
/-!
PROOF. What `INIT`, `SETDUTY`, `SETPOL` and `SETRATE` queue, and the state when that has run with no tick between (41_host_commands.md R100
to R109, R111).
-/

namespace Sys2Proof.Machine

variable {s : State}

/-! ### Starting a command (R101) -/

/-- Settles O30: a command that answers a next state has queued some list. -/
theorem startingACommandChangesHostqOnly : Obligations.StartingACommandChangesHostqOnly := by
  intro s t i hi h
  obtain ⟨ops, -, ht⟩ := queues_of_exec_next hi h
  exact ⟨ops, ht⟩

/-- A command that starts with `HOSTQ` empty: what `exec` answers, and that its micro-operations run to their effects. -/
theorem State.Queues.run {i : Instr} {ops : List MicroOp} (h : s.Queues i ops) (hq : s.hostq = [])
    (hdef : ∀ op ∈ ops, op.defined s.cfg = true) :
    exec i s = .next (s.setHostq ops) ∧ runCommand i s = .next (s.afterOps ops) :=
  runCommand_start s hq h hdef

/-- A command that queues nothing has no effect. -/
theorem State.Queues.no_effect {i : Instr} (h : s.Queues i []) : exec i s = .next s :=
  Eq.trans h (congrArg Host.Outcome.next (eq_setHostq_append_iff.2 rfl).symm)

/-! ### `MATCH(p)` (R100) -/

theorem pairwise_matchPin (s : State) (p : Byte) : (s.matchPin p).Pairwise (· < ·) :=
  List.pairwise_lt_range.filter _

/-- With unique owners two slots matched by a non-negative pin are one. -/
theorem State.TableOk.matchPin_unique (h : s.TableOk) {p : Byte} (hp : 0 ≤ p.toInt) {i j : Nat} (hi : i ∈ s.matchPin p)
    (hj : j ∈ s.matchPin p) : i = j := by
  have howner : ∀ k ∈ s.matchPin p, ∃ c, s.ch[k]? = some c ∧ c.occupied = true ∧ c.pin = p := by
    intro k hk
    obtain ⟨c, hc, hm⟩ := (mem_matchPin s).1 hk
    have hpin := ((matchesPin_iff p c).1 hm).2.resolve_left (by omega)
    exact ⟨c, hc, (Bool.and_eq_true_iff.1 hm).1, hpin⟩
  obtain ⟨c, hc, hocc, hpin⟩ := howner i hi
  obtain ⟨d, hd, hocc', hpin'⟩ := howner j hj
  exact h.unique i j c d hc hd hocc hocc' (hpin.trans hpin'.symm)

theorem State.TableOk.length_matchPin_le_one (h : s.TableOk) {p : Byte} (hp : 0 ≤ p.toInt) : (s.matchPin p).length ≤ 1 := by
  have hasc := pairwise_matchPin s p
  rcases hl : s.matchPin p with _ | ⟨i, _ | ⟨j, js⟩⟩
  · simp
  · simp
  · have hij : i = j := h.matchPin_unique hp (by simp [hl]) (by simp [hl])
    simp [hl, hij] at hasc

/-- Settles O19: `MATCH` is the filter of the ascending indices, and without a match the three commands queue nothing. -/
theorem matchIsOccupiedAndOwnedAscending : Obligations.MatchIsOccupiedAndOwnedAscending := by
  refine fun s p => ⟨fun i => ?_, pairwise_matchPin s p, fun h hp => h.length_matchPin_le_one hp, fun hrun hnone => ?_⟩
  · simp only [mem_matchPin, matchesPin_iff]
  · refine ⟨fun a => ?_, ?_, fun u d => ?_⟩
    · exact (queues_setpol_iff.2 ⟨hrun, by simp [hnone]⟩).no_effect
    · exact (queues_detach_iff.2 ⟨hrun, by simp [hnone], by simp [hnone]⟩).no_effect
    · exact (queues_setrate_iff.2 ⟨hrun, by simp [hnone]⟩).no_effect

/-! ### Field writes and the other writes -/

theorem State.modifySlot_modifySlot (i : Nat) (g g' : Slot → Slot) :
    (s.modifySlot i g).modifySlot i g' = s.modifySlot i (g' ∘ g) := by
  simp [State.modifySlot, List.modify_modify_eq]

theorem State.modifySlot_setMode (i : Nat) (g : Slot → Slot) (p : Byte) (d : PinMode) :
    (s.modifySlot i g).setMode p d = (s.setMode p d).modifySlot i g := rfl

theorem State.modifySlot_writePinLevel (i : Nat) (g : Slot → Slot) (p : Byte) (l : Level) :
    (s.modifySlot i g).writePinLevel p l = (s.writePinLevel p l).modifySlot i g := by
  simp only [State.writePinLevel, State.modifySlot_cfg]
  rcases s.cfg.resolve p with _ | ⟨a, m⟩
  · rfl
  · cases l <;> rfl

/-! ### Field writes to the matched slots -/

/-- Field writes to every matched slot change the table only, and there the slots that R100 names. -/
theorem afterOps_matched (p : Byte) {F : Nat → List MicroOp} {g : Slot → Slot}
    (h : ∀ i t, State.afterOps t (F i) = t.modifySlot i g) :
    s.afterOps ((s.matchPin p).flatMap F) =
      { s with ch := s.ch.map fun c => if 0 ≤ c.pin.toInt ∧ (p.toInt < 0 ∨ c.pin = p) then g c else c } := by
  rw [afterOps_flatMap_slots s _ F g h, modify_matched]
  simp only [matchesPin_iff]

/-- The same, with one write for each slot. -/
theorem afterOps_matched_map (p : Byte) {F : Nat → MicroOp} {g : Slot → Slot} (h : ∀ i t, (F i).apply t = t.modifySlot i g) :
    s.afterOps ((s.matchPin p).map F) =
      { s with ch := s.ch.map fun c => if 0 ≤ c.pin.toInt ∧ (p.toInt < 0 ∨ c.pin = p) then g c else c } := by
  rw [List.map_eq_flatMap]
  exact afterOps_matched p h

/-- Settles O27: the queue is one `pol` write for each matched slot. -/
theorem setpolWritesPolarityOnly : Obligations.SetpolWritesPolarityOnly := by
  intro s p a hrun hq q
  have hqueue : s.Queues (.setpol p a) ((s.matchPin p).map fun i => MicroOp.setPol i q) := queues_setpol_iff.2 ⟨hrun, rfl⟩
  have h := hqueue.run hq (by simp [MicroOp.defined])
  rw [afterOps_matched_map p fun _ _ => rfl] at h
  exact h

/-- Settles O28: the queue is the two rate writes of each matched slot. -/
theorem setrateWritesBothRatesOnly : Obligations.SetrateWritesBothRatesOnly := by
  intro s p u d hrun hq
  have hrates : ∀ i t, State.afterOps t [.setUp i u, .setDown i d] = t.modifySlot i fun c => { c with up := u, down := d } := by
    intro i t
    exact State.modifySlot_modifySlot i _ _
  rw [← afterOps_matched p hrates]
  exact (queues_setrate_iff.2 ⟨hrun, rfl⟩).run hq (List.forall_mem_flatMap.2 fun i _ => by simp [MicroOp.defined])

/-! ### INIT (R102) -/

theorem initOps_defined (q : Polarity) : ∀ op ∈ initOps q s, op.defined s.cfg = true := by
  simp only [initOps, List.forall_mem_cons, List.forall_mem_append, List.forall_mem_flatMap]
  exact ⟨rfl, fun i _ => by simp [initSlotOps, MicroOp.defined], by simp [MicroOp.defined]⟩

theorem initOps_afterOps (q : Polarity) :
    s.afterOps (initOps q s) =
      { s with defpol := q, ch := List.replicate s.nCh { Slot.powerOn with pol := q }, tmrRun := true } := by
  have htable : (List.range s.nCh).foldl (fun ch i => ch.modify i fun _ => { Slot.powerOn with pol := q }) s.ch =
      List.replicate s.nCh { Slot.powerOn with pol := q } := by
    rw [State.nCh, foldl_modify_range, List.map_const']
  rw [initOps, State.afterOps_cons, State.afterOps_append, afterOps_flatMap_slots _ _ _ _ (initSlotOps_afterOps q), ← htable]
  rfl

/-- Settles O20: the queue is that of `INIT`, and its field writes leave every slot at one value. -/
theorem initResetsTheTable : Obligations.InitResetsTheTable := by
  intro s a hstop hq q
  have hqueue : s.Queues (.init a) (initOps q s) := queues_init_iff.2 ⟨hstop, rfl⟩
  have hrun := hqueue.run hq (initOps_defined q)
  rw [initOps_afterOps] at hrun
  exact hrun

/-! ### The paths of SETDUTY (R103) -/

section
variable {p v : Byte} {imm : Bool}

theorem queues_setduty_owned {j : Nat} {js : List Nat} (hrun : s.tmrRun = true) (hp : 0 ≤ p.toInt) (hj : s.matchPin p = j :: js) :
    s.Queues (.setduty p v imm) (.setTarget j v :: immediateOps imm s) :=
  queues_setduty_iff.2 ⟨hrun, .inr (.inl ⟨(toInt_nonneg_iff p).1 hp, j, js, hj, rfl⟩)⟩

theorem queues_setduty_broadcast (hrun : s.tmrRun = true) (hp : p.toInt < 0) :
    s.Queues (.setduty p v imm) ((s.matchPin p).map (fun i => MicroOp.setTarget i v) ++ immediateOps imm s) :=
  queues_setduty_iff.2 ⟨hrun, .inl ⟨(toInt_neg_iff p).1 hp, rfl⟩⟩

/-- A pin that no slot owns: nothing without a free slot, else the attach path. -/
theorem queues_setduty_new {ops : List MicroOp} (hrun : s.tmrRun = true) (hp : 0 ≤ p.toInt) (hnew : ∀ d ∈ s.ch, d.pin ≠ p)
    (hops : (s.firstFree = none ∧ ops = []) ∨
      ∃ f a m, s.firstFree = some f ∧ s.cfg.resolve p = some (a, m) ∧
        ops = attachOps f p v a m s.defpol ++ immediateOps imm s) :
    s.Queues (.setduty p v imm) ops :=
  queues_setduty_iff.2
    ⟨hrun, .inr (.inr ⟨(toInt_nonneg_iff p).1 hp, (matchPin_eq_nil_iff hp).2 hnew, attach_eq_iff.2 hops⟩)⟩

end

/-! ### SETDUTY on owned pins (R104, R107) and with no slot free (R106) -/

/-- Settles O21: the update path, then the immediate path. -/
theorem setdutyUpdatesTargetOfTheOwner : Obligations.SetdutyUpdatesTargetOfTheOwner := by
  intro s p v imm j hrun hq hp hmatch
  have h := (queues_setduty_owned (v := v) (imm := imm) hrun hp hmatch).run hq
    (List.forall_mem_cons.2 ⟨rfl, immediateOps_defined s imm⟩)
  rw [State.afterOps_cons, afterOps_immediate] at h
  exact h

/-- Settles O24: the attach path finds no slot and queues nothing. -/
theorem setdutyWithoutFreeSlotHasNoEffect : Obligations.SetdutyWithoutFreeSlotHasNoEffect := by
  intro s p v imm hrun hp hnew hfull
  exact (queues_setduty_new hrun hp hnew (.inl ⟨firstFree_eq_none_iff.2 hfull, rfl⟩)).no_effect

/-- Settles O25: a negative pin matches every occupied slot. -/
theorem setdutyBroadcastWritesOccupiedSlots : Obligations.SetdutyBroadcastWritesOccupiedSlots := by
  intro s p v imm hrun hq hp
  have h := (queues_setduty_broadcast (v := v) (imm := imm) hrun hp).run hq
    (List.forall_mem_append.2 ⟨by simp [MicroOp.defined], immediateOps_defined s imm⟩)
  rw [State.afterOps_append, afterOps_matched_map p fun _ _ => rfl, afterOps_immediate] at h
  simp only [hp, true_or, and_true] at h
  exact h

/-! ### SETDUTY of a new pin (R105) -/

section
variable {f : Nat} {p v : Byte} {a : PortAddr} {m : Byte} {q : Polarity}

/-- `WritePinLevel` of a pin that `RESOLVE` answers is one register write (R44). -/
theorem State.writePinLevel_of_resolve (hres : s.cfg.resolve p = some (a, m)) (l : Level) :
    s.writePinLevel p l = s.setOut a (match l with
      | .high => s.outAt a ||| m
      | .low => s.outAt a &&& ~~~m) := by
  rw [State.writePinLevel, hres]
  cases l <;> rfl

theorem attachOps_defined (hres : s.cfg.resolve p = some (a, m)) : ∀ op ∈ attachOps f p v a m q, op.defined s.cfg = true := by
  simp [attachOps, MicroOp.defined, validPin_of_resolve hres]

/-- The whole effect of the attach path: one slot, the bits of the pin and its direction. -/
theorem attachOps_afterOps :
    s.afterOps (attachOps f p v a m q) =
      ((s.writePinLevel p (Polarity.offLevel q)).setMode p .output).modifySlot f
        fun c => { c with pin := p, pol := q, oreg := a, mask := m, target := v } := by
  simp only [attachOps, State.afterOps_cons, State.afterOps_nil, MicroOp.apply, State.modifySlot_modifySlot,
    State.modifySlot_writePinLevel, State.modifySlot_setMode]
  rfl

end

/-- Micro-operations that spare the owners keep a free slot free. -/
theorem afterOps_keeps_free {i : Nat} {ops : List MicroOp} (h : ∀ op ∈ ops, op.SparesOwners s)
    (hfree : ∀ c, s.ch[i]? = some c → c.free = true) : ∀ d, (s.afterOps ops).ch[i]? = some d → d.free = true := by
  induction ops generalizing s with
  | nil => exact hfree
  | cons op ops ih =>
    obtain ⟨hop, hops⟩ := List.forall_mem_cons.1 h
    exact ih (fun o ho => hop.apply (hops o ho)) (hop.keeps_free hfree)

/-- Settles O26: only the last of the seven writes `pin`. -/
theorem attachPublishesThePinLast : Obligations.AttachPublishesThePinLast := by
  intro s f c p v a m q k hc hfree hk
  have hfree' : ∀ c, s.ch[f]? = some c → c.free = true := by simpa [hc] using hfree
  have hpre : ∀ op ∈ (attachOps f p v a m q).take k, op.SparesOwners s := by
    have htake : (attachOps f p v a m q).take k ⊆ (attachOps f p v a m q).dropLast := by
      rw [List.dropLast_eq_take]
      exact List.take_subset_take_left _ (by simp [attachOps]; omega)
    exact fun op ho => attachOps_dropLast_spares hfree' op (htake ho)
  have hlt : f < (s.afterOps ((attachOps f p v a m q).take k)).nCh := by
    rw [State.afterOps_nCh]
    exact (List.getElem?_eq_some_iff.1 hc).1
  exact ⟨_, List.getElem?_eq_getElem hlt, afterOps_keeps_free hpre hfree' _ (List.getElem?_eq_getElem hlt)⟩

/-- Settles O22: no slot is matched, `f` is the first free one, and the attach path runs, then the immediate path. -/
theorem setdutyAttachesTheFirstFreeSlot : Obligations.SetdutyAttachesTheFirstFreeSlot := by
  intro s p v imm f c a m hrun hq hp hnew hc hfree hlow hres off
  have hfirst := firstFree_eq_some hc hfree hlow
  have hqueue := queues_setduty_new (v := v) (imm := imm) hrun hp hnew (.inr ⟨f, a, m, hfirst, hres, rfl⟩)
  have h := hqueue.run hq (List.forall_mem_append.2 ⟨attachOps_defined hres, immediateOps_defined s imm⟩)
  rw [State.afterOps_append, attachOps_afterOps, afterOps_immediate, State.writePinLevel_of_resolve hres] at h
  have hset : s.ch.modify f (fun c => { c with pin := p, pol := s.defpol, oreg := a, mask := m, target := v }) =
      s.ch.set f { c with pin := p, pol := s.defpol, oreg := a, mask := m, target := v } := by
    rw [List.modify_eq_set_getElem?, hc]
    rfl
  rw [← hset]
  exact h

end Sys2Proof.Machine
end

