-- ==== Sys2Proof/Proofs/Detach.lean ====
section
/-!
PROOF. What `DETACH` queues, and the table, the port bits and the directions when that has run with no tick between (41_host_commands.md
R110).
-/

namespace Sys2Proof.Machine

variable {s t : State}

/-! ### One value written wherever an element of a list says so -/

/-- What a queue of several micro-operations for each index does to a reading `obs` of the state: where those of some index write `v` to
it and those of every other index leave it, it is `v` or as before. `P` is what the writes need of the state. -/
theorem afterOps_flatMap_observe {γ : Type} {F : Nat → List MicroOp} {P : State → Prop} {obs : State → γ} {hit : Nat → Bool} {v : γ}
    (hstep : ∀ i t, P t → P (t.afterOps (F i)) ∧ obs (t.afterOps (F i)) = if hit i then v else obs t) (l : List Nat) (ht : P t) :
    obs (t.afterOps (l.flatMap F)) = if l.any hit then v else obs t := by
  induction l generalizing t with
  | nil => rfl
  | cons i l ih =>
    obtain ⟨hP, hobs⟩ := hstep i t ht
    rw [List.flatMap_cons, State.afterOps_append, ih hP, hobs, List.any_cons]
    cases hit i <;> simp

theorem any_matchPin (p : Byte) (P : Slot → Bool) :
    ((s.matchPin p).any fun i => (s.ch[i]?).any P) = s.ch.any fun c => c.matchesPin p && P c := by
  rw [Bool.eq_iff_iff]
  simp only [List.any_eq_true, mem_matchPin, Option.any_eq_true, Bool.and_eq_true]
  constructor
  · rintro ⟨i, ⟨c, hc, hm⟩, d, hd, hP⟩
    obtain rfl : c = d := by simpa [hc] using hd
    exact ⟨c, List.mem_of_getElem? hc, hm, hP⟩
  · rintro ⟨c, hc, hm, hP⟩
    obtain ⟨i, hi⟩ := List.getElem?_of_mem hc
    exact ⟨i, ⟨c, hi, hm⟩, c, hi, hP⟩

/-! ### The micro-operations of one slot -/

/-- Bit `k` of port `b` is one of those that `RESOLVE` gives for pin `p` (R44). -/
def pinBit (c : Config) (p : Byte) (b : PortAddr) (k : Nat) : Bool :=
  (c.resolve p).any fun r => r.1 == b && r.2.getLsbD k

theorem State.writePinLevel_getLsbD (h : Memory.wf t.out = true) (p : Byte) (l : Level) (b : PortAddr) {k : Nat} (hk : k < 8) :
    ((t.writePinLevel p l).outAt b).getLsbD k = if pinBit t.cfg p b k then decide (l = .high) else (t.outAt b).getLsbD k := by
  unfold State.writePinLevel pinBit
  rcases t.cfg.resolve p with _ | ⟨a, m⟩
  · rfl
  · simp [State.portDrive_bit t h a b m l k hk, eq_comm (a := b)]

theorem State.setMode_modeAt (h : PinModes.wf t.mode = true) (p q : Byte) (d : PinMode) :
    (t.setMode p d).modeAt q = if p == q then d else t.modeAt q := by
  by_cases hq : p = q
  · subst hq
    simp [State.setMode_modeAt_same t h]
  · simp [State.setMode_modeAt_other t d (Ne.symm hq), hq]

theorem detachSlotOps_of_none {i : Nat} (h : s.ch[i]? = none) : detachSlotOps s i = [] := by
  simp [detachSlotOps, h]

/-- The three micro-operations of slot `i`, which holds `c`, in the order of R110. -/
theorem afterOps_detachSlotOps {i : Nat} {c : Slot} (hc : s.ch[i]? = some c) (t : State) :
    t.afterOps (detachSlotOps s i) =
      ((t.writePinLevel c.pin s.cfg.idleLevel).setMode c.pin .input).modifySlot i fun d => { d with pin := 0xFF#8 } := by
  rw [detachSlotOps_of_some hc]
  rfl

/-- Where detaching starts: on the platform of `s`, both spaces in canonical form. -/
def State.ReadyFor (s t : State) : Prop := t.Canonical ∧ t.cfg = s.cfg

theorem State.ReadyFor.afterOps (h : s.ReadyFor t) (ops : List MicroOp) : s.ReadyFor (t.afterOps ops) := by
  induction ops generalizing t with
  | nil => exact h
  | cons op ops ih => exact ih ⟨h.1.apply op, (MicroOp.apply_cfg t op).trans h.2⟩

/-! ### The whole queue -/

section
variable (h : s.ReadyFor t) (l : List Nat)
include h

theorem detachSlotOps_modeAt_eq (q : Byte) :
    (t.afterOps (l.flatMap (detachSlotOps s))).modeAt q =
      if l.any fun i => (s.ch[i]?).any fun c => c.pin == q then .input else t.modeAt q := by
  refine afterOps_flatMap_observe (P := s.ReadyFor) (obs := fun t => t.modeAt q) (fun i t ht => ⟨ht.afterOps _, ?_⟩) l h
  rcases hc : s.ch[i]? with _ | c
  · rw [detachSlotOps_of_none hc]
    rfl
  · have hmode : PinModes.wf (t.writePinLevel c.pin s.cfg.idleLevel).mode = true := by simpa using ht.1.2
    rw [afterOps_detachSlotOps hc]
    simpa [State.modeAt] using State.setMode_modeAt hmode c.pin q .input

theorem detachSlotOps_getLsbD (b : PortAddr) {k : Nat} (hk : k < 8) :
    ((t.afterOps (l.flatMap (detachSlotOps s))).outAt b).getLsbD k =
      if l.any fun i => (s.ch[i]?).any fun c => pinBit s.cfg c.pin b k then decide (s.cfg.idleLevel = .high)
      else (t.outAt b).getLsbD k := by
  refine afterOps_flatMap_observe (P := s.ReadyFor) (obs := fun t => (t.outAt b).getLsbD k) (fun i t ht => ⟨ht.afterOps _, ?_⟩) l h
  rcases hc : s.ch[i]? with _ | c
  · rw [detachSlotOps_of_none hc]
    rfl
  · rw [afterOps_detachSlotOps hc]
    have hbit := State.writePinLevel_getLsbD ht.1.1 c.pin s.cfg.idleLevel b hk
    rwa [ht.2] at hbit

end

/-- The state but for the table and the two spaces. -/
def State.rest (s : State) : State := { s with ch := [], out := [], mode := [] }

theorem State.eq_of_rest_eq (h : t.rest = s.rest) : t = { s with ch := t.ch, out := t.out, mode := t.mode } := by
  cases t
  cases s
  simpa [State.rest] using h

theorem detachSlotOps_rest (l : List Nat) : (t.afterOps (l.flatMap (detachSlotOps s))).rest = t.rest := by
  induction l generalizing t with
  | nil => rfl
  | cons i l ih =>
    rw [List.flatMap_cons, State.afterOps_append, ih]
    rcases hc : s.ch[i]? with _ | c
    · rw [detachSlotOps_of_none hc]
      rfl
    · rw [afterOps_detachSlotOps hc]
      simp [State.rest]

/-- Settles O29: a matched slot's three micro-operations each write one value to its pin, its direction and its bits. -/
theorem detachReleasesPinAndFreesSlot : Obligations.DetachReleasesPinAndFreesSlot := by
  intro s p hrun hq hout hmode hok
  have hdet := (detachable_iff s p).2 hok
  have hqueue : s.Queues (.detach p) ((s.matchPin p).flatMap (detachSlotOps s)) := queues_detach_iff.2 ⟨hrun, hdet, rfl⟩
  have hdef : ∀ op ∈ (s.matchPin p).flatMap (detachSlotOps s), op.defined s.cfg = true :=
    List.forall_mem_flatMap.2 fun i hi => detachSlotOps_defined (List.all_eq_true.1 hdet i hi)
  obtain ⟨hexec, hcommand⟩ := hqueue.run hq hdef
  have hready : s.ReadyFor s := ⟨⟨hout, hmode⟩, rfl⟩
  refine ⟨?_, _, hcommand, State.eq_of_rest_eq (detachSlotOps_rest _), ?_, fun q => ?_, fun b k hk => ?_⟩
  · rw [hexec]
    congr 3
    funext i
    unfold detachSlotOps
    cases s.ch[i]? <;> rfl
  · rw [detachSlotOps_ch _ fun i hi => ((mem_matchPin s).1 hi).imp fun _ h => h.1, modify_matched]
    simp only [matchesPin_iff]
  · rw [detachSlotOps_modeAt_eq hready, any_matchPin]
  · rw [detachSlotOps_getLsbD hready _ b hk, any_matchPin]
    rfl

end Sys2Proof.Machine
end

