-- ==== Sys2Proof/Proofs/Refusals.lean ====
section
/-!
PROOF. Where `exec` refuses: the three use errors of 93_implementation_defined.md U2, U3, U4.
-/

namespace Sys2Proof.Machine

variable {s : State} {r : Refusal}

/-! ### The refusals of the shared parts -/

@[simp] theorem startCommand_ne_refused (ops : List MicroOp) (s : State) (r : Refusal) : startCommand ops s ≠ .refused r :=
  nofun

theorem afterInit_refused_iff {k : Host.Outcome State Fault Refusal} :
    afterInit s k = .refused r ↔ (r = .beforeInit ∧ s.tmrRun = false) ∨ (s.tmrRun = true ∧ k = .refused r) := by
  unfold afterInit
  cases s.tmrRun <;> simp [@eq_comm _ r]

/-- A free slot and a pin that `RESOLVE` does not answer: the one refusal of the attach path (U2). -/
theorem attach_refused_iff {p v : Byte} {imm : Bool} :
    attach p v imm s = .refused r ↔
      r = .unresolvablePin ∧ (∃ c ∈ s.ch, c.pin.toInt < 0) ∧ s.cfg.resolve p = none := by
  have hfree : (∃ c ∈ s.ch, c.pin.toInt < 0) ↔ s.firstFree ≠ none := by
    rw [Ne, firstFree_eq_none_iff]
    simp
  rw [hfree, attach]
  rcases s.firstFree with _ | f
  · simp
  · rcases s.cfg.resolve p with _ | ⟨a, m⟩ <;> simp [@eq_comm _ r]

/-! ### The refusals of `exec`, instruction by instruction -/

theorem exec_init_refused_iff {a : Byte} : exec (.init a) s = .refused r ↔ r = .secondInit ∧ s.tmrRun = true := by
  rw [exec_init, execInit]
  cases s.tmrRun <;> simp [@eq_comm _ r]

theorem exec_setduty_refused_iff {p v : Byte} {imm : Bool} :
    exec (.setduty p v imm) s = .refused r ↔
      (r = .beforeInit ∧ s.tmrRun = false) ∨
      (r = .unresolvablePin ∧ s.tmrRun = true ∧ 0 ≤ p.toInt ∧ (∀ c ∈ s.ch, c.pin ≠ p) ∧ (∃ c ∈ s.ch, c.pin.toInt < 0) ∧
        s.cfg.resolve p = none) := by
  rw [exec_setduty, execSetduty, afterInit_refused_iff]
  cases hp : isBroadcast p with
  | true =>
    have hneg : ¬ 0 ≤ p.toInt := by rw [not_le, toInt_neg_iff]; exact hp
    simp [hneg]
  | false =>
    have hpos : 0 ≤ p.toInt := (toInt_nonneg_iff p).2 hp
    rw [← matchPin_eq_nil_iff hpos]
    rcases s.matchPin p with _ | ⟨j, js⟩
    · simp [attach_refused_iff, hpos, and_left_comm]
    · simp

theorem exec_setpol_refused_iff {p a : Byte} : exec (.setpol p a) s = .refused r ↔ r = .beforeInit ∧ s.tmrRun = false := by
  simp [exec_setpol, execSetpol, afterInit_refused_iff]

theorem exec_detach_refused_iff {p : Byte} : exec (.detach p) s = .refused r ↔ r = .beforeInit ∧ s.tmrRun = false := by
  rw [exec_detach, execDetach, afterInit_refused_iff]
  split <;> simp

theorem exec_setrate_refused_iff {p u d : Byte} :
    exec (.setrate p u d) s = .refused r ↔ r = .beforeInit ∧ s.tmrRun = false := by
  simp [exec_setrate, execSetrate, afterInit_refused_iff]

theorem exec_tick_ne_refused : exec .tick s ≠ .refused r := by
  rw [exec_tick]
  obtain ⟨-, hs⟩ | ⟨-, -, hs⟩ | ⟨-, -, hs⟩ := execTick_cases s <;> simp [hs]

/-- Settles O31, instruction by instruction: `TICK` is never refused, `INIT` only a second time, the others before it, and `SETDUTY` also
on its attach path. -/
theorem refusalsAreTheThreeUseErrors : Obligations.RefusalsAreTheThreeUseErrors := by
  intro s i r
  cases i with
  | init a => simp [exec_init_refused_iff]
  | setduty p v imm => simp [exec_setduty_refused_iff]
  | setpol p a => simp [exec_setpol_refused_iff]
  | detach p => simp [exec_detach_refused_iff]
  | setrate p u d => simp [exec_setrate_refused_iff]
  | tick => simp [exec_tick_ne_refused]

end Sys2Proof.Machine
end

