-- ==== Sys2Proof/Proofs/Attached.lean ====
section
/-!
PROOF. From the attach of a pin to the next cycle-start tick the pin is an output at its off level (41_host_commands.md R105,
70_reset_and_hazards.md R153).
-/

namespace Sys2Proof.Machine

variable {s t : State}

/-! ### The state an attach leaves -/

/-- Slot `c` once it is claimed for a pin: five fields are written, `current`, `up` and `down` kept (R105). -/
def Slot.claimed (c : Slot) (p v : Byte) (a : PortAddr) (m : Byte) (q : Polarity) : Slot :=
  { c with pin := p, pol := q, oreg := a, mask := m, target := v }

section
variable {f : Nat} {p v : Byte} {a : PortAddr} {m : Byte} {q : Polarity}

theorem attachOps_getElem? (i : Nat) :
    (s.afterOps (attachOps f p v a m q)).ch[i]? = s.ch[i]?.map fun c => if f = i then c.claimed p v a m q else c := by
  rw [attachOps_afterOps, State.modifySlot_getElem?, State.setMode_ch, State.writePinLevel_ch]
  rfl

/-- Every occupied slot is still at a port of the platform. -/
theorem attachOps_ports (hports : ∀ d ∈ s.ch, d.occupied = true → s.cfg.isPort d.oreg = true) (ha : s.cfg.isPort a = true) :
    ∀ d ∈ (s.afterOps (attachOps f p v a m q)).ch, d.occupied = true → s.cfg.isPort d.oreg = true := by
  intro d hd hocc
  obtain ⟨i, hi⟩ := List.getElem?_of_mem hd
  rw [attachOps_getElem?, Option.map_eq_some_iff] at hi
  obtain ⟨c, hc, rfl⟩ := hi
  split_ifs at hocc ⊢
  · exact ha
  · exact hports c (List.mem_of_getElem? hc) hocc

/-- The claimed slot shares no bit when no slot occupied before holds one of its bits. -/
theorem attachOps_alone (hbits : ∀ d ∈ s.ch, d.occupied = true → d.oreg = a → d.mask &&& m = 0#8) (c : Slot) :
    (s.afterOps (attachOps f p v a m q)).alone f (c.claimed p v a m q) := by
  intro j d hd hj
  rw [attachOps_getElem?, Option.map_eq_some_iff] at hd
  obtain ⟨d', hd', rfl⟩ := hd
  rw [if_neg hj.symm]
  exact hbits d' (List.mem_of_getElem? hd')

theorem attachOps_modeAt (hwf : PinModes.wf s.mode = true) : (s.afterOps (attachOps f p v a m q)).modeAt p = .output := by
  rw [State.modeAt, attachOps_mode]
  exact PinModes.read_write_same hwf _ _

/-- `WritePinLevel` brings all the bits of its pin to the level (R44). -/
theorem State.writePinLevel_bits (hwf : Memory.wf s.out = true) (hres : s.cfg.resolve p = some (a, m)) (l : Level) :
    (s.writePinLevel p l).outAt a &&& m = levelBits l m := by
  apply BitVec.eq_of_getLsbD_eq
  intro k hk
  rw [BitVec.getLsbD_and, State.writePinLevel_getLsbD hwf p l a hk, levelBits_getLsbD]
  cases hm : m.getLsbD k <;> simp [pinBit, hres, hm]

theorem attachOps_bits (hwf : Memory.wf s.out = true) (hres : s.cfg.resolve p = some (a, m)) :
    (s.afterOps (attachOps f p v a m q)).outAt a &&& m = levelBits (Polarity.offLevel q) m := by
  rw [attachOps_afterOps]
  exact State.writePinLevel_bits hwf hres _

end

/-! ### A run of ticks -/

/-- A run of ticks changes nothing of the host's view (R28). -/
theorem ticks_hostView {n : Nat} (h : ticks n s = .next t) : t.hostView = s.hostView := by
  induction n generalizing s with
  | zero =>
    cases h
    rfl
  | succ n ih =>
    rw [ticks] at h
    cases htick : exec .tick s <;> rw [htick] at h
    case next s' => exact (ih h).trans (exec_tick_hostView htick)
    all_goals cases h

/-- Bits at the off level stay there until the next cycle-start tick, whatever `current` is: a comparator match only brings them to that
level again (R86). -/
theorem ticks_bits_stay_off {i : Nat} {c : Slot} {n : Nat} (hrun : s.tmrRun = true)
    (hports : ∀ d ∈ s.ch, d.occupied = true → s.cfg.isPort d.oreg = true) (hwf : Memory.wf s.out = true) (hc : s.ch[i]? = some c)
    (hocc : c.occupied = true) (halone : s.alone i c) (hlt : s.cnt.toNat + n < 256)
    (hoff : s.outAt c.oreg &&& c.mask = levelBits (Polarity.offLevel c.pol) c.mask) :
    ∃ t, ticks n s = .next t ∧ t.outAt c.oreg &&& c.mask = levelBits (Polarity.offLevel c.pol) c.mask := by
  obtain ⟨t, ht, hbits⟩ := levelHoldsUntilTheComparatorMatches s i c n hrun hports hwf hc hocc halone hlt
  exact ⟨t, ht, by rw [hbits, hoff, ite_self]⟩

/-! ### What an attached pin shows (R24, R25) -/

theorem State.pinBits_of_output {p : Byte} {a : PortAddr} {m : Byte} (hres : s.cfg.resolve p = some (a, m))
    (hmode : s.modeAt p = .output) : s.pinBits p = some (s.outAt a &&& m) := by
  rw [State.pinBits, hres, hmode]

/-- Settles O23: the attach leaves the pin an output with its bits at the off level, in a slot alone on them, and no tick before the
cycle start moves either. -/
theorem attachedPinStaysOffUntilTheCycleStarts : Obligations.AttachedPinStaysOffUntilTheCycleStarts := by
  intro s p v f c a m n hrun hq hout hmode hslots hp hnew hc hfree hlow hres hlt
  obtain ⟨ha, hpin⟩ := resolve_isPort hres
  have hqueue := queues_setduty_new (v := v) (imm := false) hrun hp hnew
    (.inr ⟨f, a, m, firstFree_eq_some hc hfree hlow, hres, (List.append_nil _).symm⟩)
  obtain ⟨-, hcommand⟩ := hqueue.run hq (attachOps_defined hres)
  have hcfg := s.afterOps_cfg (attachOps f p v a m s.defpol)
  have hslot : (s.afterOps (attachOps f p v a m s.defpol)).ch[f]? = some (c.claimed p v a m s.defpol) := by
    simp [attachOps_getElem?, hc]
  obtain ⟨u, hticks, hbits⟩ := ticks_bits_stay_off (n := n)
    (by simpa [attachOps_afterOps] using hrun)
    (by rw [hcfg]; exact attachOps_ports (fun d hd hocc => (hslots d hd hocc).1) ha)
    (State.ReadyFor.afterOps ⟨⟨hout, hmode⟩, rfl⟩ _).1.1
    hslot (by simpa [Slot.occupied, Slot.claimed] using hpin)
    (attachOps_alone (fun d hd hocc => (hslots d hd hocc).2) c)
    (by simpa [attachOps_afterOps] using hlt)
    (attachOps_bits hout hres)
  obtain ⟨-, -, hmodes, -, -, hcfgs⟩ := State.hostView_eq_iff.1 (ticks_hostView hticks)
  have hdir : u.modeAt p = .output := by
    rw [State.modeAt, hmodes]
    exact attachOps_modeAt hmode
  refine ⟨_, u, hcommand, hticks, ?_⟩
  rw [State.pinBits_of_output (by rw [hcfgs, hcfg, hres]) hdir]
  exact congrArg some hbits

end Sys2Proof.Machine
end
